-- ==== Sys2Proof/Word.lean ====
section
/-! DEFINITION. The 8-bit word of the device: registers, payload bytes, the cursor and the header byte of a descriptor
(spec/00_scope.md R10, R13: every value is unsigned and 8 bits wide). -/

namespace Sys2Proof

/-- An unsigned 8-bit value: a register, a payload byte, the cursor, a header byte (R10, R13 of spec/00_scope.md). -/
abbrev Byte := BitVec 8

end Sys2Proof
end

