-- ==== Sys2Proof/Config.lean ====
section
/-! DEFINITION. The implementation parameters of spec/00_scope.md R10. All but the bus address have a fixed value there.
The device leaves no result open ("No value anywhere in the device is `any value`", spec/93_implementation_defined.md),
so this file holds no free value. MAX_WRITE_LEN has no entry: R10 and D8 put no bound on `len`. -/

namespace Sys2Proof

/-- `REG_COUNT`: the number of entries of the register array (R10, R21). R11 makes it 2 to the power of the cursor's
width, and fixes both. -/
def Config.regCount : Nat := 256

/-- `CURSOR_WIDTH`: the bits of `cmd` (R10, R11). -/
def Config.cursorWidth : Nat := 8

/-- `DATA_WIDTH`: the bits of one register and of one payload byte (R10). -/
def Config.dataWidth : Nat := 8

/-- `BUS_ADDR`: "an integer in the valid addressing range of the host bus", fixed at construction and immutable (R29).
The spec gives neither its width nor its value (D9), so it is a constant with no body. No operation reads it: address
matching is the dispatcher's (R42, R143). Log 9. -/
opaque Config.busAddress : Int

end Sys2Proof
end

