-- ==== Sys2Proof/Syntax.lean ====
section
/-! DEFINITION. The four operations of the device as syntax, one constructor per row of spec/opcode_table.json
(spec/00_scope.md R3, spec/30_encoding.md R60). -/

namespace Sys2Proof

/-- One operation call of the bus-transaction dispatcher with its arguments (R3, R60). -/
inductive Instr where
  /-- `onQuickCommand(readFlag)`: `readFlag` is true for a quick read (R63, R86). -/
  | quick (readFlag : Bool)
  /-- `onWriteData(bytes, len)`: the payload `bytes[0 .. len)`. `bytes[0]` is the command/address byte, the rest are the
  data, and `len` is the payload's own length (R64, R65, R100). -/
  | write (bytes : List Byte)
  /-- `onReceiveByte()` (R115). -/
  | recv
  /-- `onInit()` / `onReset()`, one operation (R80, R81). -/
  | reset
  deriving DecidableEq, Repr

end Sys2Proof
end

