-- ==== Sys2Proof/WellFormed.lean ====
section
/-! DEFINITION. The caller contract of each operation (the "Caller contract" column of spec/30_encoding.md R60).
RESET, QUICK and RECV have no precondition; WRITE has one, `len >= 1` (spec/60_exceptions.md R130). -/

namespace Sys2Proof

/-- The operation meets its precondition (R130). An ill-formed WRITE still decodes (R69) and faults when it runs
(R106). -/
def Instr.wellFormed : Instr → Bool
  | .quick _ => true
  | .write bytes => 1 ≤ bytes.length
  | .recv => true
  | .reset => true

end Sys2Proof
end

