-- ==== Sys2Proof/Decode.lean ====
section
/-! DEFINITION. Descriptors and their decoding and encoding (spec/30_encoding.md). A descriptor is one header byte and
the payload that its frame carries; the decoder is total and refuses by name. -/

namespace Sys2Proof

/-- One descriptor as the host delivers it: the header byte `H` and the payload bytes of its frame (R61, R67). -/
structure Descriptor where
  header : Byte
  payload : List Byte
  deriving DecidableEq, Repr

/-- The `KIND` field's four values (R62). -/
inductive Kind where
  | quick
  | write
  | recv
  | reset
  deriving DecidableEq, Repr

/-- Why the decoder refuses a descriptor (R132 of spec/60_exceptions.md, codes 2 and 3). -/
inductive Reject where
  /-- The header spells no operation; records the header byte. -/
  | reservedDescriptor (header : Byte)
  /-- A QUICK, RECV or RESET frame carries payload; records the header byte and the payload length. -/
  | unexpectedPayload (header : Byte) (payloadLen : Nat)
  deriving DecidableEq, Repr

/-- What the decoder answers: an operation, or a refusal with its reason. -/
inductive Decoded where
  | instr (i : Instr)
  | reject (r : Reject)
  deriving DecidableEq, Repr

/-! ## The header's fields -/

/-- The value of the `KIND` field for each operation (R62). -/
def kindBits : Kind → BitVec 2
  | .quick => 0b00#2
  | .write => 0b01#2
  | .recv => 0b10#2
  | .reset => 0b11#2

/-- `KIND` = `H[1:0]` (R61, R62). -/
def kindOf (h : Byte) : Kind :=
  if h.extractLsb' 0 2 = 0b00#2 then .quick
  else if h.extractLsb' 0 2 = 0b01#2 then .write
  else if h.extractLsb' 0 2 = 0b10#2 then .recv
  else .reset

/-- `R` = `H[2]`, QUICK's `readFlag`: 1 is read (R61, R63). -/
def readBit (h : Byte) : Bool := h.getLsbD 2

/-- `H[7:3]`, which must be 0 (R61). -/
def reservedField (h : Byte) : BitVec 5 := h.extractLsb' 3 5

/-- A header byte laid out from its fields, `H[7:3]` = 0 (R61). -/
def headerOf (k : Kind) (r : Bool) : Byte :=
  (0b00000#5 ++ BitVec.ofBool r ++ kindBits k).cast (by decide)

/-- A header that spells no operation: a bit of `H[7:3]` is set, or `R` is 1 outside QUICK (R68). -/
def headerReserved (h : Byte) : Bool :=
  reservedField h ≠ 0#5 || (readBit h && kindOf h ≠ .quick)

/-! ## The opcode map -/

/-- One row of the opcode map of R70. -/
structure OpcodeRow where
  kind : Kind
  pattern : Byte
  mask : Byte
  deriving DecidableEq, Repr

/-- The opcode map, row for row (R70; spec/opcode_table.json). -/
def opcodeMap : List OpcodeRow :=
  [ ⟨.quick, 0x00#8, 0xFB#8⟩, ⟨.write, 0x01#8, 0xFF#8⟩, ⟨.recv, 0x02#8, 0xFF#8⟩, ⟨.reset, 0x03#8, 0xFF#8⟩ ]

/-- A header matches a row when `(H & mask) == match` (R70). -/
def OpcodeRow.hits (row : OpcodeRow) (h : Byte) : Bool := (h &&& row.mask) == row.pattern

/-! ## Decoding -/

/-- An operation that takes no payload: refused when its frame carries any (R66, R68). -/
def withoutPayload (d : Descriptor) (i : Instr) : Decoded :=
  if d.payload = [] then .instr i else .reject (.unexpectedPayload d.header d.payload.length)

/-- The operation a descriptor spells, or why it spells none (R61, R62, R68, R70). A WRITE takes its frame's payload
whatever its length, 0 among them (R69). A reserved header is refused as such whatever its frame carries (log 4). -/
def decode (d : Descriptor) : Decoded :=
  if headerReserved d.header then .reject (.reservedDescriptor d.header)
  else
    match kindOf d.header with
    | .quick => withoutPayload d (.quick (readBit d.header))
    | .write => .instr (.write d.payload)
    | .recv => withoutPayload d .recv
    | .reset => withoutPayload d .reset

/-- The descriptor of a framed run of bytes: the header first, then the payload (R61, R67). No bytes hold no header, so
they are no descriptor (log 7). -/
def descriptorOfBytes : List Byte → Option Descriptor
  | [] => none
  | h :: payload => some ⟨h, payload⟩

/-- Decoding a frame's bytes; total on any bytes, `none` for a frame with no header (log 7). -/
def decodeBytes (bytes : List Byte) : Option Decoded := (descriptorOfBytes bytes).map decode

/-! ## Encoding -/

/-- The descriptor of an operation (R61 to R66, R70). -/
def encode : Instr → Descriptor
  | .quick readFlag => ⟨headerOf .quick readFlag, []⟩
  | .write bytes => ⟨headerOf .write false, bytes⟩
  | .recv => ⟨headerOf .recv false, []⟩
  | .reset => ⟨headerOf .reset false, []⟩

/-- A descriptor's bytes in the order of delivery: one header byte, then `len` payload bytes (R67). -/
def Descriptor.toBytes (d : Descriptor) : List Byte := d.header :: d.payload

/-! ## The opcode table's words -/

/-- The bytes of a table word: bit 0 of `w` is the header's least significant bit, and each later byte follows. -/
def bytesOfWord (nbits w : Nat) : List Byte :=
  (List.range (max 1 (nbits / 8))).map fun k => BitVec.ofNat 8 (w % 2 ^ nbits / 2 ^ (8 * k))

/-- The frame of a table word. The table gives WRITE's row the header's 8 bits only, and a WRITE carries at least its
command byte (R60, R64), so a WRITE word with no payload bits gets that one operand byte, 0x00 (log 5). -/
def frameOfWord (nbits w : Nat) : Descriptor :=
  match bytesOfWord nbits w with
  | [] => ⟨0x00#8, []⟩
  | h :: payload => if h = headerOf .write false ∧ payload = [] then ⟨h, [0x00#8]⟩ else ⟨h, payload⟩

/-- The operation the decoder reads from a table word, `none` where it refuses. -/
def decodeTableWord (nbits w : Nat) : Option Instr :=
  match decode (frameOfWord nbits w) with
  | .instr i => some i
  | .reject _ => none

end Sys2Proof
end

