-- ==== Sys2Proof/Machine/State.lean ====
section
/-! DEFINITION. The state of the device and of its host's side of a run, the reasons a step can stop, and the state after
construction (spec/10_state.md, spec/60_exceptions.md R132, spec/70_reset_and_hazards.md R160, R171). -/

namespace Sys2Proof.Machine

/-- The device's architectural state, exactly (R20). -/
structure Device where
  /-- The register array `x[0..255]` as (index, value) pairs, indices strictly rising, no entry that holds what an
  unlisted index reads as (R21; log 8). -/
  regs : List Host.Cell
  /-- The cursor `cmd`: 8 bits, every value legal (R25). -/
  cmd : Byte
  deriving DecidableEq, Repr

/-- What one completed operation gives back to the dispatcher (R60, R148). -/
inductive Response where
  /-- No response value: QUICK and RESET (R80, R88). -/
  | noValue
  /-- A result code: WRITE's, always 0 (R105). The spec gives the result no width (log 11). -/
  | result (code : Nat)
  /-- A data byte: RECV's (R115). -/
  | byte (value : Byte)
  deriving DecidableEq, Repr

/-- The device and, beside it, the host's side of a run: R30 and D2 keep the position in the stream outside the device,
and R171 makes the responses part of what a run shows (log 1). -/
structure State where
  /-- The device (R20). -/
  dev : Device
  /-- The descriptors delivered and not yet run, oldest first (R17, R171). -/
  stream : List Descriptor
  /-- The responses of the operations completed so far, oldest first (R171). -/
  responses : List Response
  deriving DecidableEq, Repr

/-- The model's faults (R132). -/
inductive Fault where
  /-- Raised by WRITE with `len` = 0, and by nothing else; records the faulting descriptor (R106, R131, R133). Safe: the
  spec's own decision D5 stops where the source says nothing, so nothing is claimed of such a run (log 3). -/
  | zeroLengthWrite (recorded : Descriptor)
  deriving DecidableEq, Repr

/-- The reasons a step is refused (R132, R134). -/
inductive Refusal where
  /-- Raised by an arm of `exec` whose instruction has no meaning yet. Safe. No arm answers it in this model. -/
  | notModelled (mnemonic : String)
  /-- Raised by the step when the decoder meets a header that spells no operation (R68). Safe: no behaviour of the device
  corresponds to it (R134). -/
  | reservedDescriptor (header : Byte)
  /-- Raised by the step when the decoder meets a QUICK, RECV or RESET frame that carries payload (R68). Safe: no behaviour
  of the device corresponds to it (R134). -/
  | unexpectedPayload (header : Byte) (payloadLen : Nat)
  deriving DecidableEq, Repr

/-- The device after construction and after RESET: every entry 0x00 and `cmd` 0x00 (R34, R160). -/
def Device.reset : Device := { regs := [], cmd := 0x00#8 }

/-- The machine right after construction: the device of R34, nothing delivered and nothing answered (log 1, log 6). -/
def State.reset : State := { dev := Device.reset, stream := [], responses := [] }

end Sys2Proof.Machine
end

