-- ==== Sys2Proof/Machine/Flags.lean ====
section
/-! DEFINITION. Flags and status. The device has no flags, condition codes, status or error register, and no operation
records a status in it (spec/10_state.md R31; "Flags written: none" in R80, R86, R100, R115), so there is no flag
computation. What an operation reports goes to the dispatcher as its response, outside the device. -/

namespace Sys2Proof.Machine

/-- `return v`: the operation's response to the dispatcher (R13), kept behind those of the earlier operations (R171). -/
def respond (r : Response) (s : State) : State := { s with responses := s.responses ++ [r] }

/-- WRITE's result: 0, success, unconditionally (R105). -/
def writeSuccess : Response := .result 0

end Sys2Proof.Machine
end

