-- ==== Sys2Proof/Machine/Ops.lean ====
section
/-! DEFINITION. The named operations over the register array, the cursor, the stream and the faults. Every meaning is
built from these. -/

namespace Sys2Proof.Machine

/-! ## The register array (spec/10_state.md section 2, spec/20_memory.md) -/

/-- What an index that is not listed reads as: the reset value of every entry (R34). -/
def unlistedByte : Byte := 0x00#8

/-- `x[a]` in a listed array (`MemRead(a, 1)` of R13). -/
def readReg : List Host.Cell → Nat → Byte
  | [], _ => unlistedByte
  | (b, v) :: rest, a => if b = a then v else readReg rest a

/-- The array without any entry for index `a`. -/
def eraseReg (m : List Host.Cell) (a : Nat) : List Host.Cell := m.filter fun cell => cell.1 ≠ a

/-- The array with an entry for index `a` put before the first larger index. -/
def insertReg : List Host.Cell → Nat → Byte → List Host.Cell
  | [], a, v => [(a, v)]
  | (b, w) :: rest, a, v => if a < b then (a, v) :: (b, w) :: rest else (b, w) :: insertReg rest a v

/-- `x[a] <- v` (`MemWrite(a, 1, v)` of R13). A value that an unlisted index reads as is not listed, so that equal arrays
are equal lists (log 8). -/
def writeReg (m : List Host.Cell) (a : Nat) (v : Byte) : List Host.Cell :=
  if v = unlistedByte then eraseReg m a else insertReg (eraseReg m a) a v

/-- The bytes stored one by one at ascending indices from `a`: `x[a] <- d0`, `x[a + 1] <- d1`, and so on (R43, step 5 of
R100). -/
def storeRange (m : List Host.Cell) (a : Nat) : List Byte → List Host.Cell
  | [] => m
  | d :: rest => storeRange (writeReg m a d) (a + 1) rest

/-- The array whose every entry is 0x00 (R34, R80): nothing is listed. -/
def allZero : List Host.Cell := []

/-- Indices strictly rising from `lo` on, each below REG_COUNT, and no listed value that an unlisted index reads as. -/
def Memory.wfFrom (lo : Nat) : List Host.Cell → Bool
  | [] => true
  | (a, v) :: rest => lo ≤ a && a < Config.regCount && v ≠ unlistedByte && Memory.wfFrom (a + 1) rest

/-- The array's one canonical form: equal arrays are equal lists, and it has exactly the 256 indices of R21. -/
def Memory.wf (m : List Host.Cell) : Bool := Memory.wfFrom 0 m

/-! ## The device's registers -/

/-- `x[i]`: the entry at an 8-bit index (R13, R21). -/
def Device.x (d : Device) (i : Byte) : Byte := readReg d.regs i.toNat

/-- `x[0..255]` in ascending order (R171). -/
def Device.allRegs (d : Device) : List Byte := (List.range Config.regCount).map (readReg d.regs)

/-- The cursor after an increment: 8-bit, unsigned, wrapping from 255 to 0 (R115, R116, R120). -/
def nextCursor (c : Byte) : Byte := c + 1#8

/-- `cmd <- c` (R13). -/
def setCursor (c : Byte) (s : State) : State := { s with dev := { s.dev with cmd := c } }

/-- The bytes stored at ascending indices from `a`, nothing else changed (step 5 of R100). -/
def storeBytes (a : Nat) (data : List Byte) (s : State) : State :=
  { s with dev := { s.dev with regs := storeRange s.dev.regs a data } }

/-- `x[i] <- 0x00` for every index, `cmd` as it was (the loop of R80). -/
def zeroRegs (s : State) : State := { s with dev := { s.dev with regs := allZero } }

/-! ## Faults (spec/60_exceptions.md section 1)

The device has no trap mechanism: no handler, vector, saved state, mode or return (R137, R138). What stands for taking an
exception is one operation, `raise Fault(info)` of R13, which ends the run. There is no return from it. -/

/-- `raise Fault(info)`: the run stops in a faulted state that records `info`, and no later step exists (R13, R131). -/
def raiseFault (info : Fault) : Host.Outcome State Fault Refusal := .fault info

/-- The code of a fault (R132). -/
def Fault.code : Fault → Nat
  | .zeroLengthWrite _ => 1

/-- The code of a refusal of the decoder (R132). The model's own refusal has none. -/
def Refusal.code : Refusal → Option Nat
  | .reservedDescriptor _ => some 2
  | .unexpectedPayload _ _ => some 3
  | _ => none

/-- The decoder's verdict as the reason the step is refused (R134). -/
def refusalOf : Reject → Refusal
  | .reservedDescriptor h => .reservedDescriptor h
  | .unexpectedPayload h n => .unexpectedPayload h n

/-! ## The stream (spec/70_reset_and_hazards.md section 5) -/

/-- The next descriptor of the stream and the state with it taken off, if the host has delivered one (R171). -/
def takeDescriptor (s : State) : Option (Descriptor × State) :=
  match s.stream with
  | [] => none
  | d :: rest => some (d, { s with stream := rest })

/-- The host delivers descriptors behind those already delivered (R52). -/
def deliver (ds : List Descriptor) (s : State) : State := { s with stream := s.stream ++ ds }

/-- A descriptor put where the next step takes its own (log 6). -/
def deliverFirst (d : Descriptor) (s : State) : State := { s with stream := d :: s.stream }

/-- No descriptor is delivered, so no operation is called and nothing in the device changes (R141; log 2). -/
def idle (s : State) : State := s

end Sys2Proof.Machine
end

