-- ==== Sys2Proof/Machine/Control.lean ====
section
/-! DEFINITION. The control operations RESET and QUICK (spec/40_control.md). -/

namespace Sys2Proof.Machine

/-- QUICK: `readFlag` is read and ignored, no state changes, no response value (R86, R87, R88). -/
def execQuick (_readFlag : Bool) (s : State) : Host.Outcome State Fault Refusal :=
  .next (respond .noValue s)

/-- RESET: every entry and the cursor become 0, no response value, from every state (R80, R81). -/
def execReset (s : State) : Host.Outcome State Fault Refusal :=
  .next (respond .noValue (setCursor 0x00#8 (zeroRegs s)))

end Sys2Proof.Machine
end

