-- ==== Sys2Proof/Machine/Operands.lean ====
section
/-! DEFINITION. The operand forms. Only WRITE has operands that a meaning uses: its payload `bytes[0 .. len)`
(spec/30_encoding.md R64, R65; spec/41_data.md R100, R102, R120). QUICK's `readFlag` is read and ignored (R86). The range
arithmetic is over unbounded naturals (R120, D13). -/

namespace Sys2Proof.Machine

/-- `zext_9(bytes[0])`: the command/address byte as a register index, 0 to 255, no sign and no scaling (R64, R100). -/
def commandIndex (c : Byte) : Nat := c.toNat

/-- `copyLen = min(dataLen, 256 - c)`: how many data bytes a WRITE stores (R102, R120). -/
def copyLen (c dataLen : Nat) : Nat := min dataLen (Config.regCount - c)

/-- The data bytes a WRITE stores; those beyond `copyLen` are discarded (R100 step 4, R103). -/
def storedData (c : Byte) (data : List Byte) : List Byte := data.take (copyLen (commandIndex c) data.length)

end Sys2Proof.Machine
end

