-- ==== Sys2Proof/Machine/Data.lean ====
section
/-! DEFINITION. The data operations WRITE and RECV (spec/41_data.md). -/

namespace Sys2Proof.Machine

/-- WRITE: the cursor is set to `bytes[0]`, the data are stored at ascending indices from there up to index 255, the rest
is dropped, the cursor is not advanced, and the result is 0 (R100 to R105). A payload of length 0 breaks the
precondition and raises the fault, changing nothing (R106). With `len` = 1 there is no data and nothing is stored
(R101). -/
def execWrite (bytes : List Byte) (s : State) : Host.Outcome State Fault Refusal :=
  match bytes with
  | [] => raiseFault (.zeroLengthWrite (encode (.write [])))
  | c :: data => .next (respond writeSuccess (storeBytes (commandIndex c) (storedData c data) (setCursor c s)))

/-- RECV: the register at the cursor is read first, then the cursor is incremented modulo 256, and the byte read is
returned (R115, R116). -/
def execRecv (s : State) : Host.Outcome State Fault Refusal :=
  .next (respond (.byte (s.dev.x s.dev.cmd)) (setCursor (nextCursor s.dev.cmd) s))

end Sys2Proof.Machine
end

