-- ==== Sys2Proof/Machine/Dispatch.lean ====
section
/-! DEFINITION. One arm per operation of spec/opcode_table.json. -/

namespace Sys2Proof.Machine

def exec (i : Instr) (s : State) : Host.Outcome State Fault Refusal :=
  match i with
  | .quick readFlag => Sys2Proof.Machine.execQuick readFlag s
  | .write bytes => Sys2Proof.Machine.execWrite bytes s
  | .recv => Sys2Proof.Machine.execRecv s
  | .reset => Sys2Proof.Machine.execReset s

end Sys2Proof.Machine
end

