-- ==== Sys2Proof/Machine/Step.lean ====
section
/-! DEFINITION. One step: the next descriptor of the stream is decoded and its operation runs to completion
(spec/00_scope.md R4, R14; spec/60_exceptions.md R134, R136). -/

namespace Sys2Proof.Machine

/-- One step takes one descriptor off the stream. Decoding comes first, so a refused descriptor never runs (R136); a
decoded one runs as one indivisible operation (R14). With nothing delivered the device stays as it is (log 2). -/
def step (s : State) : Host.Outcome State Fault Refusal :=
  match takeDescriptor s with
  | none => .next (idle s)
  | some (d, t) =>
    match decode d with
    | .reject r => .refused (refusalOf r)
    | .instr i => exec i t

/-- The state with a table word's operation delivered as the next one (log 5, log 6). -/
def State.withFetchWord (s : State) (nbits w : Nat) : State := deliverFirst (frameOfWord nbits w) s

end Sys2Proof.Machine
end

