-- ==== Sys2Proof/Machine/Assembler.lean ====
section
/-! DEFINITION. The spec's own assembler lines and pseudo-instructions (spec/30_encoding.md R71, R72). They are text over
the four operations: no operation of the device depends on them. -/

namespace Sys2Proof.Machine

/-- One line: an operation of R71, or a pseudo-instruction of R72. -/
inductive AsmLine where
  /-- `QUICK.W`, `QUICK.R`, `WRITE c, d1, ..., dn`, `RECV`, `RESET`. -/
  | op (i : Instr)
  /-- `INIT`. -/
  | init
  /-- `SETCUR c`. -/
  | setcur (c : Byte)
  /-- `READ c, n`. -/
  | read (c : Byte) (n : Nat)
  /-- `FILL c, v, n`. -/
  | fill (c v : Byte) (n : Nat)
  deriving DecidableEq, Repr

/-- The operations a line stands for (R71, R72). -/
def AsmLine.expand : AsmLine → List Instr
  | .op i => [i]
  | .init => [.reset]
  | .setcur c => [.write [c]]
  | .read c n => .write [c] :: List.replicate n .recv
  | .fill c v n => [.write (c :: List.replicate n v)]

/-- The descriptors of a line, in order. -/
def AsmLine.assemble (l : AsmLine) : List Descriptor := l.expand.map encode

/-! ## Reading a line's characters -/

/-- The characters before a comment (R71: "Text after `;` is a comment"). -/
def beforeComment (cs : List Char) : List Char := cs.takeWhile (· ≠ ';')

/-- The characters without blanks at either end. -/
def trimBlanks (cs : List Char) : List Char :=
  ((cs.dropWhile (· = ' ')).reverse.dropWhile (· = ' ')).reverse

/-- The pieces between commas. -/
def commaPieces : List Char → List (List Char)
  | [] => [[]]
  | c :: rest =>
    match commaPieces rest with
    | [] => [[c]]
    | piece :: more => if c = ',' then [] :: piece :: more else (c :: piece) :: more

/-- The value of a hexadecimal digit. -/
def hexDigit (c : Char) : Option Nat :=
  if '0'.toNat ≤ c.toNat ∧ c.toNat ≤ '9'.toNat then some (c.toNat - '0'.toNat)
  else if 'A'.toNat ≤ c.toNat ∧ c.toNat ≤ 'F'.toNat then some (c.toNat - 'A'.toNat + 10)
  else if 'a'.toNat ≤ c.toNat ∧ c.toNat ≤ 'f'.toNat then some (c.toNat - 'a'.toNat + 10)
  else none

/-- The number its digits spell in a base, most significant digit first, after the digits read so far. -/
def digitsValue (base acc : Nat) : List Char → Option Nat
  | [] => some acc
  | c :: rest =>
    match hexDigit c with
    | some d => if d < base then digitsValue base (base * acc + d) rest else none
    | none => none

/-- A number: hexadecimal with the prefix `0x` (R71). -/
def hexNumber (cs : List Char) : Option Nat :=
  match cs with
  | '0' :: 'x' :: d :: rest => digitsValue 16 0 (d :: rest)
  | _ => none

/-- A repeat count of READ or FILL: hexadecimal with the prefix, or decimal as in the line `FILL 0x00, 0xA5, 300` of
spec/95_test_vectors.md PRG4 (log 21). -/
def countNumber (cs : List Char) : Option Nat :=
  match hexNumber cs with
  | some n => some n
  | none => if cs = [] then none else digitsValue 10 0 cs

/-- A byte operand. -/
def byteOperand (cs : List Char) : Option Byte :=
  match hexNumber cs with
  | some n => if n < 256 then some (BitVec.ofNat 8 n) else none
  | none => none

/-- Byte operands, all of them or none. -/
def byteOperands : List (List Char) → Option (List Byte)
  | [] => some []
  | p :: rest =>
    match byteOperand p, byteOperands rest with
    | some b, some bs => some (b :: bs)
    | _, _ => none

/-- The line that characters spell, comment and outer blanks left out; `none` where they spell none of R71 and R72. -/
def parseLine (cs : List Char) : Option AsmLine :=
  let text := trimBlanks (beforeComment cs)
  let name := text.takeWhile (· ≠ ' ')
  let operands := trimBlanks (text.dropWhile (· ≠ ' '))
  let pieces := (commaPieces operands).map trimBlanks
  if operands = [] then
    if name = ['Q', 'U', 'I', 'C', 'K', '.', 'W'] then some (.op (.quick false))
    else if name = ['Q', 'U', 'I', 'C', 'K', '.', 'R'] then some (.op (.quick true))
    else if name = ['R', 'E', 'C', 'V'] then some (.op .recv)
    else if name = ['R', 'E', 'S', 'E', 'T'] then some (.op .reset)
    else if name = ['I', 'N', 'I', 'T'] then some .init
    else none
  else if name = ['W', 'R', 'I', 'T', 'E'] then (byteOperands pieces).map fun bytes => .op (.write bytes)
  else
    match pieces with
    | [c] =>
      if name = ['S', 'E', 'T', 'C', 'U', 'R'] then (byteOperand c).map .setcur else none
    | [c, n] =>
      if name = ['R', 'E', 'A', 'D'] then
        match byteOperand c, countNumber n with
        | some b, some k => some (.read b k)
        | _, _ => none
      else none
    | [c, v, n] =>
      if name = ['F', 'I', 'L', 'L'] then
        match byteOperand c, byteOperand v, countNumber n with
        | some b, some w, some k => some (.fill b w k)
        | _, _, _ => none
      else none
    | _ => none

end Sys2Proof.Machine
end

