-- ==== Sys2Proof/Machine/Run.lean ====
section
/-! DEFINITION. Runs: a finite stream of descriptors applied to the constructed device, its three ends, and what each end
lets the host observe (spec/70_reset_and_hazards.md R171; spec/20_memory.md R52). -/

namespace Sys2Proof.Machine

/-- How a run ends (R171). A faulted or refused end keeps the state in which the descriptor was met: earlier descriptors
have completed, and the device is as they left it (R131, R137). -/
inductive RunEnd where
  | normal (final : State)
  | faulted (reason : Fault) (before : State)
  | refused (reason : Refusal) (before : State)
  deriving DecidableEq, Repr

/-- What the host observes of an ended run (R171). -/
inductive Observation where
  /-- The responses, the final `x[0..255]` and the final `cmd`. -/
  | normal (responses : List Response) (x : List Byte) (cmd : Byte)
  /-- The fault and the responses before it. -/
  | faulted (reason : Fault) (responses : List Response)
  /-- The refusal and the responses before it. -/
  | refused (reason : Refusal) (responses : List Response)
  deriving DecidableEq, Repr

/-- At most `n` steps, ended by the first fault or refusal: neither is followed by a step (R131, R134). -/
def runSteps : Nat → State → RunEnd
  | 0, s => .normal s
  | n + 1, s =>
    match step s with
    | .next t => runSteps n t
    | .fault f => .faulted f s
    | .refused r => .refused r s

/-- The descriptors delivered to the machine in state `s` and run in order; each takes one step (R170, R171). -/
def runFrom (s : State) (ds : List Descriptor) : RunEnd := runSteps (deliver ds s).stream.length (deliver ds s)

/-- A run: the stream applied to the device in its construction state (R160, R171). -/
def run (ds : List Descriptor) : RunEnd := runFrom State.reset ds

/-- The observation of an ended run (R171). -/
def RunEnd.observe : RunEnd → Observation
  | .normal s => .normal s.responses s.dev.allRegs s.dev.cmd
  | .faulted f s => .faulted f s.responses
  | .refused r s => .refused r s.responses

/-- Operations in sequence, each on the state the one before it left, stopped by the first that stops (R52). -/
def execAll : List Instr → State → Host.Outcome State Fault Refusal
  | [], s => .next s
  | i :: rest, s =>
    match exec i s with
    | .next t => execAll rest t
    | .fault f => .fault f
    | .refused r => .refused r

end Sys2Proof.Machine
end

