-- ==== Sys2Proof/Safety.lean ====
section
/-! DEFINITION. What counts as a sound state and as a safe run, in the terms the claims use. -/

namespace Sys2Proof.Machine

/-- The register array is in its canonical form and lists none but the 256 indices of R21. -/
def State.Inv (s : State) : Prop := Memory.wf s.dev.regs = true

/-- The descriptor spells an operation that meets its precondition: what the host may send (R130, R148). -/
def legalDescriptor (d : Descriptor) : Bool :=
  match decode d with
  | .instr i => i.wellFormed
  | .reject _ => false

/-- A run that reached the end of its stream with no fault and no refusal (R171). -/
def RunEnd.isNormal : RunEnd → Bool
  | .normal _ => true
  | .faulted _ _ => false
  | .refused _ _ => false

end Sys2Proof.Machine
end

