-- ==== Sys2Proof/Certificates/Slice0/Obligations.lean ====
section
/-! DEFINITION. The statements for the provers, each a def Obligations.<Name> : Prop. A docstring names the rule of spec/
that the statement formalises. A statement that rests on a choice says whose choice it is and where it stands. -/

open Sys2Proof Sys2Proof.Machine

/-! ## Decoding and encoding (spec/30_encoding.md) -/

/-- The words written out in R62, R67, R69 and vectors V-DEC-1 to V-DEC-5 and V-DEC-9 decode to the operations they stand
for. The bit values are the spec's own choice (D3). -/
def Obligations.SpecWordsDecode : Prop :=
  decodeBytes [0x00#8] = some (.instr (.quick false)) ∧
  decodeBytes [0x04#8] = some (.instr (.quick true)) ∧
  decodeBytes [0x01#8, 0x05#8, 0xAA#8] = some (.instr (.write [0x05#8, 0xAA#8])) ∧
  decodeBytes [0x01#8] = some (.instr (.write [])) ∧
  decodeBytes [0x02#8] = some (.instr .recv) ∧
  decodeBytes [0x03#8] = some (.instr .reset)

/-- At most one row of the opcode map matches a header, the decoder reads the kind of the row that matches, and a header
that matches none is reserved (R70, a choice of the spec, D3). -/
def Obligations.OpcodeMapRowsDisjoint : Prop :=
  ∀ h : Byte,
    (∀ row ∈ opcodeMap, ∀ row' ∈ opcodeMap, row.hits h = true → row'.hits h = true → row = row') ∧
    (∀ row ∈ opcodeMap, row.hits h = true → headerReserved h = false ∧ kindOf h = row.kind) ∧
    ((∀ row ∈ opcodeMap, row.hits h = false) → headerReserved h = true)

/-- Decoding and encoding agree in both directions: a descriptor decodes to an operation exactly when it is that
operation's encoding, every operand at every value, the empty payload of a WRITE among them. -/
def Obligations.DecodeEncodeAgree : Prop :=
  ∀ (d : Descriptor) (i : Instr), decode d = .instr i ↔ d = encode i

/-- The decoder refuses exactly the descriptors of R68, and under the name and with the record of R132: a header with a bit
of `H[7:3]` set or with `R` = 1 outside QUICK, and else a frame other than WRITE's that carries payload. The refusals are
the spec's own choice (D6), and that the first name goes before the second is read from R136 (log 4). -/
def Obligations.DecoderRefusesExactly : Prop :=
  ∀ (d : Descriptor) (r : Reject), decode d = .reject r ↔
    if d.header.extractLsb' 3 5 ≠ 0#5 ∨ (d.header.getLsbD 2 = true ∧ d.header.extractLsb' 0 2 ≠ 0b00#2)
    then r = .reservedDescriptor d.header
    else d.header.extractLsb' 0 2 ≠ 0b01#2 ∧ d.payload ≠ [] ∧
      r = .unexpectedPayload d.header d.payload.length

/-- A WRITE descriptor is 1 + `len` bytes long, every other is one byte long, and the bytes of an encoded operation decode
to it (R67, a choice of the spec, D3). -/
def Obligations.DescriptorLengths : Prop :=
  (∀ bytes : List Byte, (encode (.write bytes)).toBytes.length = 1 + bytes.length) ∧
  (∀ readFlag : Bool, (encode (.quick readFlag)).toBytes.length = 1) ∧
  (encode .recv).toBytes.length = 1 ∧ (encode .reset).toBytes.length = 1 ∧
  (∀ i : Instr, decodeBytes (encode i).toBytes = some (.instr i))

/-! ## The step -/

/-- When the descriptor at the head of the stream decodes to an operation, the step is that operation's `exec` on the state
with the descriptor taken off the stream, and does nothing else. -/
def Obligations.StepRunsDecodedOperation : Prop :=
  ∀ (s : State) (d : Descriptor) (rest : List Descriptor) (i : Instr),
    s.stream = d :: rest → decode d = .instr i → step s = exec i { s with stream := rest }

/-- A descriptor with a reserved header, and one whose QUICK, RECV or RESET frame carries payload, is refused by the step
under the name and with the record of R132, and runs nothing. Refusing them is the spec's own choice (D6). -/
def Obligations.StepRefusesByName : Prop :=
  ∀ (s : State) (d : Descriptor) (rest : List Descriptor), s.stream = d :: rest →
    (headerReserved d.header = true → step s = .refused (.reservedDescriptor d.header)) ∧
    (headerReserved d.header = false → kindOf d.header ≠ .write → d.payload ≠ [] →
      step s = .refused (.unexpectedPayload d.header d.payload.length))

/-- With nothing delivered a step leaves the machine as it is: the model's reading of R141 (DEDUCED, log 2). -/
def Obligations.StepIdlesOnEmptyStream : Prop :=
  ∀ s : State, s.stream = [] → step s = .next s

/-- A word of the opcode table, delivered as the next descriptor, is the operation the next step runs. How a table word is
framed is the model's choice (DESIGN CHOICE, log 5, log 6). -/
def Obligations.TableWordIsRunNext : Prop :=
  ∀ (s : State) (nbits w : Nat) (i : Instr),
    decodeTableWord nbits w = some i → step (s.withFetchWord nbits w) = exec i s

/-- One step on a delivered descriptor takes exactly that descriptor and adds exactly one response behind the earlier
ones. That QUICK and RESET leave an entry without a value is the model's form of the list (DESIGN CHOICE, log 12). -/
def Obligations.StepConsumesOneRespondsOnce : Prop :=
  ∀ (s t : State) (d : Descriptor) (rest : List Descriptor),
    s.stream = d :: rest → step s = .next t → t.stream = rest ∧ ∃ r, t.responses = s.responses ++ [r]

/-! ## State and reset (spec/10_state.md, spec/70_reset_and_hazards.md) -/

/-- R160: the first state of every run has every register 0x00 and `cmd` 0x00. -/
def Obligations.ConstructedDeviceIsAllZero : Prop :=
  (∀ i : Byte, State.reset.dev.x i = 0x00#8) ∧ State.reset.dev.cmd = 0x00#8 ∧
  run [] = .normal State.reset ∧ ∀ ds : List Descriptor, run ds = runFrom State.reset ds

/-- R21: the array has exactly 256 entries in every state, indexed 0 to 255, and no entry is an alias of another. -/
def Obligations.RegisterArrayHas256DistinctEntries : Prop :=
  (∀ (d : Device), d.allRegs.length = 256 ∧ ∀ i : Byte, d.allRegs[i.toNat]? = some (d.x i)) ∧
  (∀ (s : State) (i v : Byte), ∃ t, exec (.write [i, v]) s = .next t ∧ t.dev.x i = v ∧
    ∀ j : Byte, j ≠ i → t.dev.x j = s.dev.x j)

/-- R22: every entry can be written and read, RECV reads the entry at `cmd`, WRITE writes a contiguous range starting at
the command byte, RESET writes 0 to every entry, QUICK reads and writes none, RECV writes none, and a step that changes the
device has run one of them. -/
def Obligations.EntriesReachedByOperationsOnly : Prop :=
  (∀ (s : State) (i v : Byte), ∃ t, exec (.write [i, v]) s = .next t ∧ t.dev.x i = v) ∧
  (∀ (s : State) (i : Byte), ∃ t, execAll [.write [i], .recv] s = .next t ∧
    t.responses = s.responses ++ [.result 0, .byte (s.dev.x i)]) ∧
  (∀ (i : Instr) (s t : State), exec i s = .next t →
    match i with
    | .quick _ => t.dev = s.dev ∧ t.responses = s.responses ++ [.noValue]
    | .write bytes => ∃ c data, bytes = c :: data ∧
        ∃ n : Nat, c.toNat + n ≤ 256 ∧ n ≤ data.length ∧
          (∀ k : Nat, k < n → some (t.dev.x (BitVec.ofNat 8 (c.toNat + k))) = data[k]?) ∧
          (∀ j : Byte, (j.toNat < c.toNat ∨ c.toNat + n ≤ j.toNat) → t.dev.x j = s.dev.x j)
    | .recv => (∀ j : Byte, t.dev.x j = s.dev.x j) ∧ t.responses = s.responses ++ [.byte (s.dev.x s.dev.cmd)]
    | .reset => ∀ j : Byte, t.dev.x j = 0x00#8) ∧
  (∀ s t : State, step s = .next t → t.dev = s.dev ∨ ∃ (i : Instr) (u : State), u.dev = s.dev ∧ exec i u = .next t)

/-- R26: WRITE sets `cmd` to its first byte, RECV increments it modulo 256, RESET clears it, QUICK leaves it unchanged, and
a step that changes it has run one of the first three. -/
def Obligations.CursorChangedByNamedOperationsOnly : Prop :=
  (∀ (i : Instr) (s t : State), exec i s = .next t →
    match i with
    | .quick _ => t.dev.cmd = s.dev.cmd
    | .write bytes => bytes.head? = some t.dev.cmd
    | .recv => t.dev.cmd.toNat = (s.dev.cmd.toNat + 1) % 256
    | .reset => t.dev.cmd = 0x00#8) ∧
  (∀ s t : State, step s = .next t → t.dev.cmd ≠ s.dev.cmd →
    ∃ (i : Instr) (u : State), u.dev = s.dev ∧ exec i u = .next t ∧ ∀ readFlag : Bool, i ≠ .quick readFlag)

/-- The invariant of the model's register list (log 8): the canonical form holds in the constructed machine. -/
def Obligations.ConstructedArrayIsCanonical : Prop := State.reset.Inv

/-- Every step keeps the array's canonical form, in which every listed index is one of the 256 of R21 (log 8). -/
def Obligations.StepKeepsCanonicalArray : Prop :=
  ∀ s : State, s.Inv → ∀ t : State, step s = .next t → t.Inv

/-- In the canonical form the array is what its 256 entries read as and nothing more: equal entries, equal data (log 8). -/
def Obligations.EqualEntriesAreEqualData : Prop :=
  ∀ s t : State, s.Inv → t.Inv → (∀ i : Byte, s.dev.x i = t.dev.x i) → s.dev.cmd = t.dev.cmd → s.dev = t.dev

/-- The device keeps nothing between operations beyond the array and the cursor: from two states with the same device, the
same operations give the same later responses and the same device, or stop alike (read from R20 and R33). -/
def Obligations.DeviceStateDecidesTheFuture : Prop :=
  ∀ (ops : List Instr) (s s' : State), s.dev = s'.dev →
    (∀ t : State, execAll ops s = .next t → ∃ later t', t.responses = s.responses ++ later ∧
      execAll ops s' = .next t' ∧ t'.responses = s'.responses ++ later ∧ t'.dev = t.dev) ∧
    (∀ f : Fault, execAll ops s = .fault f → execAll ops s' = .fault f)

/-- An operation's response shows `cmd` only through the register it picks: two states that agree on that register get the
same response, whatever their cursors are (read from R28, which the spec marks as derived). -/
def Obligations.ResponseShowsCursorOnlyThroughRegister : Prop :=
  ∀ (i : Instr) (s s' t t' : State), s.dev.x s.dev.cmd = s'.dev.x s'.dev.cmd →
    exec i s = .next t → exec i s' = .next t' →
    ∃ r, t.responses = s.responses ++ [r] ∧ t'.responses = s'.responses ++ [r]

/-! ## RESET (spec/40_control.md section 1) -/

/-- R80: RESET, header 0x03 with no payload, completes from every state with every entry 0 and `cmd` 0 and no response
value, and the device it leaves does not depend on the state before, not even on its form: it is the constructed one. -/
def Obligations.ResetZeroesArrayAndCursor : Prop :=
  decode ⟨0x03#8, []⟩ = .instr .reset ∧ encode .reset = ⟨0x03#8, []⟩ ∧
  ∀ s : State, ∃ t : State, exec .reset s = .next t ∧
    (∀ i : Byte, t.dev.x i = 0x00#8) ∧ t.dev.cmd = 0x00#8 ∧ t.dev = State.reset.dev ∧
    t.stream = s.stream ∧ t.responses = s.responses ++ [.noValue]

/-- RESET is idempotent on the device (R83, which the spec marks as derived). -/
def Obligations.ResetIsIdempotent : Prop :=
  ∀ s : State, ∃ t u : State, exec .reset s = .next t ∧ exec .reset t = .next u ∧ u.dev = t.dev

/-- On a canonical array RESET is the loop of R80's pseudocode: 0x00 stored at index 0, 1, ..., 255 in turn, then the
cursor cleared. The model clears the list at once, and that the two agree rests on the list's form (log 8, log 20). -/
def Obligations.ResetIsTheZeroingLoop : Prop :=
  ∀ s : State, s.Inv →
    exec .reset s = .next (respond .noValue (setCursor 0x00#8 (storeBytes 0 (List.replicate 256 0x00#8) s)))

/-- After RESET every RECV returns 0x00 and moves the cursor on; after 256 of them the cursor is back at 0 (R84, which the
spec marks as derived). -/
def Obligations.ReceivesAfterResetReturnZero : Prop :=
  ∀ (s : State) (n : Nat), ∃ t : State, execAll (.reset :: List.replicate n .recv) s = .next t ∧
    t.responses = s.responses ++ .noValue :: List.replicate n (.byte 0x00#8) ∧
    t.dev.cmd.toNat = n % 256 ∧ ∀ i : Byte, t.dev.x i = 0x00#8

/-- What comes after a RESET does not depend on what came before it: the later responses and the final device are the same
from any two states. That a RESET may come at any point of a stream is the spec's own choice (D7, log 15). -/
def Obligations.ResetErasesHistory : Prop :=
  ∀ (ops : List Instr) (s s' t t' : State),
    execAll (.reset :: ops) s = .next t → execAll (.reset :: ops) s' = .next t' →
    t.dev = t'.dev ∧ ∃ later, t.responses = s.responses ++ later ∧ t'.responses = s'.responses ++ later

/-! ## QUICK (spec/40_control.md section 2) -/

/-- R86: QUICK, header 0x00 or 0x04 with no payload, completes from every state for either flag, changes no state and gives
no response value. -/
def Obligations.QuickChangesNoState : Prop :=
  decode ⟨0x00#8, []⟩ = .instr (.quick false) ∧ decode ⟨0x04#8, []⟩ = .instr (.quick true) ∧
  encode (.quick false) = ⟨0x00#8, []⟩ ∧ encode (.quick true) = ⟨0x04#8, []⟩ ∧
  ∀ (readFlag : Bool) (s : State), exec (.quick readFlag) s =
    .next { dev := s.dev, stream := s.stream, responses := s.responses ++ [.noValue] }

/-- R87: QUICK never changes an entry or `cmd`, and a QUICK anywhere in a stream of operations can be removed: the run
without it ends in the same device, with the same responses but for QUICK's own entry without a value, or stops alike. -/
def Obligations.QuickCanBeRemoved : Prop :=
  (∀ (readFlag : Bool) (s t : State), exec (.quick readFlag) s = .next t → t.dev = s.dev) ∧
  (∀ (pre post : List Instr) (readFlag : Bool) (s t u : State), execAll pre s = .next t →
    execAll (pre ++ post) s = .next u → ∃ later, u.responses = t.responses ++ later ∧
      execAll (pre ++ .quick readFlag :: post) s =
        .next { u with responses := t.responses ++ .noValue :: later }) ∧
  (∀ (pre post : List Instr) (readFlag : Bool) (s : State) (f : Fault),
    execAll (pre ++ post) s = .fault f ↔ execAll (pre ++ .quick readFlag :: post) s = .fault f)

/-! ## WRITE (spec/41_data.md section 1) -/

/-- R100, from its pseudocode: WRITE, header 0x01 followed by the payload, with `len` at least 1 completes from every
state with `cmd` at `bytes[0]`, with `copyLen = min(len - 1, 256 - bytes[0])` data bytes stored at ascending indices from
there, every other entry unchanged, and result 0. With `len` = 0 it raises ZeroLengthWrite. -/
def Obligations.WriteStoresItsPayload : Prop :=
  (∀ bytes : List Byte, decode ⟨0x01#8, bytes⟩ = .instr (.write bytes) ∧ encode (.write bytes) = ⟨0x01#8, bytes⟩) ∧
  (∀ (s : State) (c : Byte) (data : List Byte), ∃ t : State, exec (.write (c :: data)) s = .next t ∧
    t.dev.cmd = c ∧
    (∀ k : Nat, k < min ((c :: data).length - 1) (256 - c.toNat) →
      some (t.dev.x (BitVec.ofNat 8 (c.toNat + k))) = (c :: data)[1 + k]?) ∧
    (∀ i : Byte, (i.toNat < c.toNat ∨ c.toNat + min ((c :: data).length - 1) (256 - c.toNat) ≤ i.toNat) →
      t.dev.x i = s.dev.x i) ∧
    t.stream = s.stream ∧ t.responses = s.responses ++ [.result 0]) ∧
  (∀ s : State, exec (.write []) s = .fault (.zeroLengthWrite ⟨0x01#8, []⟩))

/-- R101: WRITE sets `cmd` to `bytes[0]` whatever `len` is; with `len` = 1 it changes no register, and the RECV after it
returns the prior value of the register it addressed. -/
def Obligations.WriteSetsCursorFirst : Prop :=
  (∀ (s : State) (c : Byte) (data : List Byte), ∃ t : State, exec (.write (c :: data)) s = .next t ∧ t.dev.cmd = c) ∧
  (∀ (s : State) (c : Byte), ∃ t u : State, exec (.write [c]) s = .next t ∧ t.dev = { s.dev with cmd := c } ∧
    exec .recv t = .next u ∧ u.responses = t.responses ++ [.byte (s.dev.x c)])

/-- R102: the number of data bytes a WRITE stores is `min(len - 1, 256 - bytes[0])`, between 0 and 256; `256 - bytes[0]`
is between 1 (at 0xFF) and 256 (at 0x00) and counts the indices from `bytes[0]` to 255. -/
def Obligations.StoredCountIsCopyLen : Prop :=
  (∀ (c : Byte) (data : List Byte),
    (storedData c data).length = min ((c :: data).length - 1) (256 - c.toNat) ∧ (storedData c data).length ≤ 256 ∧
    ∀ s : State, ∃ t : State, exec (.write (c :: data)) s = .next t ∧
      t.dev.regs = storeRange s.dev.regs c.toNat (storedData c data)) ∧
  (∀ c : Byte, 1 ≤ 256 - c.toNat ∧ 256 - c.toNat ≤ 256 ∧
    (256 - c.toNat = 1 ↔ c = 0xFF#8) ∧ (256 - c.toNat = 256 ↔ c = 0x00#8) ∧
    ((List.range 256).filter fun i => c.toNat ≤ i).length = 256 - c.toNat)

/-- R103: data bytes beyond index 255 are dropped with no error: the WRITE answers as one without them, no entry below the
start is touched, index 255 keeps the byte addressed to it, and P4's example comes out as written. -/
def Obligations.WriteTruncatesAtIndex255 : Prop :=
  (∀ (s : State) (c : Byte) (data : List Byte), ∃ t : State, exec (.write (c :: data)) s = .next t ∧
    exec (.write (c :: data.take (256 - c.toNat))) s = .next t ∧ t.responses = s.responses ++ [.result 0] ∧
    (∀ i : Byte, i.toNat < c.toNat → t.dev.x i = s.dev.x i) ∧
    (256 - c.toNat ≤ data.length → some (t.dev.x 0xFF#8) = data[255 - c.toNat]?)) ∧
  (∀ s : State, ∃ t : State, exec (.write [0xFE#8, 0x01#8, 0x02#8, 0x03#8]) s = .next t ∧
    t.dev.x 0xFE#8 = 0x01#8 ∧ t.dev.x 0xFF#8 = 0x02#8 ∧
    (∀ i : Byte, i ≠ 0xFE#8 → i ≠ 0xFF#8 → t.dev.x i = s.dev.x i) ∧ t.responses = s.responses ++ [.result 0])

/-- R104: WRITE leaves `cmd` at `bytes[0]`, not at the end of the range, so a RECV that follows reads the first index the
WRITE wrote. -/
def Obligations.WriteDoesNotAdvanceCursor : Prop :=
  ∀ (s : State) (c : Byte) (data : List Byte), ∃ t u : State, exec (.write (c :: data)) s = .next t ∧
    t.dev.cmd = c ∧ exec .recv t = .next u ∧ u.responses = t.responses ++ [.byte (t.dev.x c)]

/-- R105: WRITE with `len` at least 1 always returns the result 0. -/
def Obligations.WriteAlwaysSucceeds : Prop :=
  ∀ (s : State) (bytes : List Byte), 1 ≤ bytes.length →
    ∃ t : State, exec (.write bytes) s = .next t ∧ t.responses = s.responses ++ [.result 0]

/-- R107: WRITE changes exactly the indices in `[addr, min(addr + len(payload), 256))`, which is
`[bytes[0] .. bytes[0] + copyLen)`; each of those takes its payload byte and every other keeps its value. -/
def Obligations.WriteChangesExactlyItsRange : Prop :=
  ∀ (s : State) (c : Byte) (data : List Byte),
    c.toNat + min data.length (256 - c.toNat) = min (c.toNat + data.length) 256 ∧
    ∃ t : State, exec (.write (c :: data)) s = .next t ∧ t.dev.cmd = c ∧
      ∀ i : Byte,
        if c.toNat ≤ i.toNat ∧ i.toNat < min (c.toNat + data.length) 256
        then data[i.toNat - c.toNat]? = some (t.dev.x i)
        else t.dev.x i = s.dev.x i

/-- R43: data byte `bytes[k]`, k from 1 to copyLen, is stored at `x[cmd + k - 1]`, and the RECVs that follow return the
entries at ascending indices from there. -/
def Obligations.WriteStoresInPayloadOrder : Prop :=
  ∀ (s : State) (c : Byte) (data : List Byte) (n : Nat), ∃ t u : State, exec (.write (c :: data)) s = .next t ∧
    (∀ k : Nat, 1 ≤ k → k ≤ min data.length (256 - c.toNat) →
      (c :: data)[k]? = some (t.dev.x (BitVec.ofNat 8 (t.dev.cmd.toNat + k - 1)))) ∧
    execAll (List.replicate n .recv) t = .next u ∧
    u.responses = t.responses ++ (List.range n).map fun k => .byte (t.dev.x (BitVec.ofNat 8 (c.toNat + k)))

/-- WRITE with `len` = 0 raises ZeroLengthWrite, code 1, with the descriptor recorded; a run that meets it stops there in
the state before, whatever steps were left. The fault is the spec's own choice where the source is silent (D5, log 3). -/
def Obligations.ZeroLengthWriteFaults : Prop :=
  (∀ s : State, exec (.write []) s = .fault (.zeroLengthWrite ⟨0x01#8, []⟩)) ∧
  (Fault.zeroLengthWrite ⟨0x01#8, []⟩).code = 1 ∧
  (∀ (s : State) (rest : List Descriptor) (n : Nat), s.stream = ⟨0x01#8, []⟩ :: rest →
    runSteps (n + 1) s = .faulted (.zeroLengthWrite ⟨0x01#8, []⟩) s)

/-- A repeated WRITE leaves the same device as one (R108, which the spec marks as derived), on canonical arrays (log 8). -/
def Obligations.WriteIsIdempotent : Prop :=
  ∀ (s : State) (c : Byte) (data : List Byte), s.Inv → ∃ t u : State,
    exec (.write (c :: data)) s = .next t ∧ exec (.write (c :: data)) t = .next u ∧ u.dev = t.dev

/-- WRITE's effect does not depend on the state before it: from any two states it sets the same cursor and the same values
in the same range and leaves every index outside alone (R108, which the spec marks as derived). -/
def Obligations.WriteEffectIgnoresOldState : Prop :=
  ∀ (s s' : State) (c : Byte) (data : List Byte), ∃ t t' : State,
    exec (.write (c :: data)) s = .next t ∧ exec (.write (c :: data)) s' = .next t' ∧ t.dev.cmd = t'.dev.cmd ∧
    ∀ i : Byte, (if c.toNat ≤ i.toNat ∧ i.toNat < c.toNat + data.length
      then t.dev.x i = t'.dev.x i else t.dev.x i = s.dev.x i ∧ t'.dev.x i = s'.dev.x i)

/-- A WRITE of at least 256 data bytes at index 0 leaves a device that keeps nothing of the state before, on canonical
arrays (from R102, R107 and log 8). -/
def Obligations.FullWriteErasesHistory : Prop :=
  ∀ (s s' : State) (data : List Byte), s.Inv → s'.Inv → 256 ≤ data.length → ∃ t t' : State,
    exec (.write (0x00#8 :: data)) s = .next t ∧ exec (.write (0x00#8 :: data)) s' = .next t' ∧ t.dev = t'.dev

/-- A block that crosses index 255, split into a WRITE up to 255 and a WRITE of the rest at 0, lands at consecutive indices
modulo 256 (R167, which the spec marks as derived). -/
def Obligations.SplitWriteCoversTheCrossing : Prop :=
  ∀ (s : State) (c : Byte) (low high : List Byte), low.length = 256 - c.toNat → high.length ≤ c.toNat →
    ∃ t : State, execAll [.write (c :: low), .write (0x00#8 :: high)] s = .next t ∧
      ∀ k : Nat, k < (low ++ high).length → (low ++ high)[k]? = some (t.dev.x (BitVec.ofNat 8 (c.toNat + k)))

/-! ## RECV (spec/41_data.md section 2) -/

/-- R115: RECV, header 0x02 with no payload, completes from every state, returns the register at the cursor as it was
before the increment, moves the cursor on by one modulo 256, and changes no register. -/
def Obligations.ReceiveReturnsThenAdvances : Prop :=
  decode ⟨0x02#8, []⟩ = .instr .recv ∧ encode .recv = ⟨0x02#8, []⟩ ∧
  ∀ s : State, ∃ t : State, exec .recv s = .next t ∧
    t.responses = s.responses ++ [.byte (s.dev.x s.dev.cmd)] ∧
    t.dev.cmd.toNat = (s.dev.cmd.toNat + 1) % 256 ∧ t.dev.regs = s.dev.regs ∧ t.stream = s.stream

/-- R116: with the cursor at 255 RECV returns `x[255]` and sets the cursor to 0, and the next returns `x[0]`; a WRITE never
wraps: no index below its start changes. -/
def Obligations.ReadCursorWraps : Prop :=
  (∀ s : State, s.dev.cmd = 0xFF#8 → ∃ t u : State, exec .recv s = .next t ∧
    t.responses = s.responses ++ [.byte (s.dev.x 0xFF#8)] ∧ t.dev.cmd = 0x00#8 ∧
    exec .recv t = .next u ∧ u.responses = t.responses ++ [.byte (s.dev.x 0x00#8)]) ∧
  (∀ (s : State) (c : Byte) (data : List Byte), ∃ t : State, exec (.write (c :: data)) s = .next t ∧
    ∀ i : Byte, i.toNat < c.toNat → t.dev.x i = s.dev.x i)

/-- n RECVs in a row return `x[c]`, `x[(c+1) mod 256]`, ... and leave `cmd` at `(c + n) mod 256` and the array as it was
(R117, which the spec marks as derived). -/
def Obligations.ReceivesStreamConsecutiveRegisters : Prop :=
  ∀ (s : State) (n : Nat), ∃ t : State, execAll (List.replicate n .recv) s = .next t ∧
    t.dev.regs = s.dev.regs ∧ t.dev.cmd.toNat = (s.dev.cmd.toNat + n) % 256 ∧ t.stream = s.stream ∧
    t.responses = s.responses ++
      (List.range n).map fun k => .byte (s.dev.x (BitVec.ofNat 8 ((s.dev.cmd.toNat + k) % 256)))

/-- R119: a RECV after a WRITE reads `x[bytes[0]]`, the first byte the WRITE wrote or the old value when it had no data,
and P3's example comes out as written. -/
def Obligations.ReceiveAfterWriteReadsItsFirstByte : Prop :=
  (∀ (s : State) (c : Byte) (data : List Byte), ∃ t u : State, exec (.write (c :: data)) s = .next t ∧
    exec .recv t = .next u ∧ u.responses = t.responses ++ [.byte (t.dev.x c)] ∧
    t.dev.x c = data.head?.getD (s.dev.x c)) ∧
  (∀ s : State, ∃ t u : State, exec (.write [0x05#8, 0xAA#8, 0xBB#8, 0xCC#8]) s = .next t ∧
    t.dev.x 0x05#8 = 0xAA#8 ∧ t.dev.x 0x06#8 = 0xBB#8 ∧ t.dev.x 0x07#8 = 0xCC#8 ∧ t.dev.cmd = 0x05#8 ∧
    execAll [.recv, .recv, .recv] t = .next u ∧
    u.responses = t.responses ++ [.byte 0xAA#8, .byte 0xBB#8, .byte 0xCC#8] ∧ u.dev.cmd = 0x08#8)

/-- The round trip: 256 bytes written at address 0 and read back one by one come back exactly, and the cursor ends at 0
(R121, which the spec marks as derived). -/
def Obligations.FullWriteRoundTrip : Prop :=
  ∀ (s : State) (data : List Byte), data.length = 256 → ∃ t : State,
    execAll (.write (0x00#8 :: data) :: List.replicate 256 .recv) s = .next t ∧
    t.responses = s.responses ++ .result 0 :: data.map .byte ∧ t.dev.cmd = 0x00#8

/-- A block written and read back: RECVs up to its length return its bytes in order and leave the cursor behind them; past
a truncated write they wrap and return what the low entries held before it (R122, which the spec marks as derived). -/
def Obligations.BlockReadBack : Prop :=
  ∀ (s : State) (c : Byte) (data : List Byte) (m : Nat), ∃ (t : State) (later : List Response),
    execAll (.write (c :: data) :: List.replicate m .recv) s = .next t ∧
    t.responses = s.responses ++ .result 0 :: later ∧ later.length = m ∧
    t.dev.cmd.toNat = (c.toNat + m) % 256 ∧
    (data.length ≤ 256 - c.toNat → m ≤ data.length → later = (data.take m).map .byte) ∧
    (256 - c.toNat < data.length → ∀ k : Nat, k < m → k < 256 →
      if k < 256 - c.toNat then later[k]? = data[k]?.map .byte
      else later[k]? = some (.byte (s.dev.x (BitVec.ofNat 8 (k - (256 - c.toNat))))))

/-! ## Pseudo-instructions (spec/30_encoding.md R72, text of the spec's own, D4) -/

/-- `READ c, n` answers with the n entries from `c` on, modulo 256, behind WRITE's 0, and changes no entry. -/
def Obligations.ReadPseudoStreamsRegisters : Prop :=
  ∀ (s : State) (c : Byte) (n : Nat), ∃ t : State, execAll (AsmLine.read c n).expand s = .next t ∧
    t.dev.regs = s.dev.regs ∧
    t.responses = s.responses ++ .result 0 ::
      (List.range n).map fun k => .byte (s.dev.x (BitVec.ofNat 8 (c.toNat + k)))

/-- `FILL c, v, n` gives the entries from `c` up to `c + n - 1` or 255 the value `v`, leaves every other as it was, and
sets the cursor to `c`. -/
def Obligations.FillPseudoFillsRange : Prop :=
  ∀ (s : State) (c v : Byte) (n : Nat), ∃ t : State, execAll (AsmLine.fill c v n).expand s = .next t ∧
    t.dev.cmd = c ∧
    ∀ i : Byte, t.dev.x i = if c.toNat ≤ i.toNat ∧ i.toNat < c.toNat + n then v else s.dev.x i

/-! ## Faults and runs (spec/60_exceptions.md, spec/70_reset_and_hazards.md section 5) -/

/-- R130: an operation whose inputs meet its precondition raises nothing and completes, in every state, one by one and in
any sequence; RESET, QUICK and RECV have no precondition, and WRITE's is `len >= 1`. -/
def Obligations.MetPreconditionsNeverStop : Prop :=
  (∀ i : Instr, i.wellFormed = true ↔ ∀ bytes : List Byte, i = .write bytes → 1 ≤ bytes.length) ∧
  (∀ (i : Instr) (s : State), i.wellFormed = true → ∃ t : State, exec i s = .next t) ∧
  (∀ (ops : List Instr) (s : State), (∀ i ∈ ops, i.wellFormed = true) → ∃ t : State, execAll ops s = .next t)

/-- The one fault of the model is ZeroLengthWrite, raised by a WRITE of length 0 and by nothing else, and no decoded
operation is refused. The fault is the spec's own choice (D5, log 3). -/
def Obligations.ZeroLengthWriteIsTheOnlyFault : Prop :=
  ∀ (i : Instr) (s : State),
    (∀ f : Fault, exec i s = .fault f ↔ i = .write [] ∧ f = .zeroLengthWrite ⟨0x01#8, []⟩) ∧
    (∀ r : Refusal, exec i s ≠ .refused r)

/-- A stream of legal descriptors runs to its normal end, with nothing left undelivered and one response each: the run is
the sequence of the decoded operations. Ends and observations are the spec's own choice (D12). -/
def Obligations.LegalStreamRunsToNormalEnd : Prop :=
  ∀ (s : State) (ds : List Descriptor), s.stream = [] → (∀ d ∈ ds, legalDescriptor d = true) →
    ∃ (t : State) (ops : List Instr), runFrom s ds = .normal t ∧ t.stream = [] ∧
      t.responses.length = s.responses.length + ds.length ∧ ds = ops.map encode ∧ execAll ops s = .next t

/-- The ordering model: a stream in two parts runs as the second part from the state the first part left (read from R52). -/
def Obligations.RunIsSequentialComposition : Prop :=
  ∀ (s t : State) (ds es : List Descriptor), s.stream = [] → runFrom s ds = .normal t →
    runFrom s (ds ++ es) = runFrom t es

/-- A run that meets a zero-length WRITE ends faulted at that descriptor: every earlier one has completed, none behind it
runs, and the host observes the fault and the responses before it (read from R131, R137 and R171; D5, D12, log 3). -/
def Obligations.RunStopsAtZeroLengthWrite : Prop :=
  ∀ (s t : State) (pre post : List Descriptor), s.stream = [] → runFrom s pre = .normal t →
    runFrom s (pre ++ ⟨0x01#8, []⟩ :: post) =
      .faulted (.zeroLengthWrite ⟨0x01#8, []⟩) { t with stream := ⟨0x01#8, []⟩ :: post } ∧
    (runFrom s (pre ++ ⟨0x01#8, []⟩ :: post)).observe =
      .faulted (.zeroLengthWrite ⟨0x01#8, []⟩) t.responses

/-- A run that meets a descriptor the decoder refuses ends refused at it, with the refusal and the responses before it
observed, and none behind it runs (read from R134 and R171; D6, D12). -/
def Obligations.RunStopsAtRefusedDescriptor : Prop :=
  ∀ (s t : State) (pre post : List Descriptor) (d : Descriptor) (r : Reject), s.stream = [] →
    runFrom s pre = .normal t → decode d = .reject r →
    runFrom s (pre ++ d :: post) = .refused (refusalOf r) { t with stream := d :: post } ∧
    (runFrom s (pre ++ d :: post)).observe = .refused (refusalOf r) t.responses

/-- A normal end shows the responses, the 256 final entries and the final cursor (read from R171; D12), and the codes of
the three stops are those of R132, the spec's own numbering (D5, D6). -/
def Obligations.ObservationsAndStopCodes : Prop :=
  (∀ s : State, ∃ x : List Byte, (RunEnd.normal s).observe = .normal s.responses x s.dev.cmd ∧ x.length = 256 ∧
    ∀ i : Byte, x[i.toNat]? = some (s.dev.x i)) ∧
  (∀ d : Descriptor, (Fault.zeroLengthWrite d).code = 1) ∧
  (∀ h : Byte, (refusalOf (.reservedDescriptor h)).code = some 2) ∧
  (∀ (h : Byte) (n : Nat), (refusalOf (.unexpectedPayload h n)).code = some 3)
end

