-- ==== Sys2Proof/Laws/Regs.lean ====
section
/-! SUPPORT. The register array: what a read sees after each operation on the list, and that every operation keeps the
canonical form. -/

namespace Sys2Proof.Machine

/-! ## Reads -/

@[simp] theorem readReg_allZero (a : Nat) : readReg allZero a = 0x00#8 := rfl

theorem readReg_eraseReg (m : List Host.Cell) (a b : Nat) :
    readReg (eraseReg m a) b = if b = a then unlistedByte else readReg m b := by
  induction m with
  | nil => simp [eraseReg, readReg]
  | cons cell rest ih =>
    obtain ⟨k, v⟩ := cell
    unfold eraseReg at ih ⊢
    by_cases hk : k = a
    · subst hk
      rw [List.filter_cons_of_neg (by simp), ih]
      by_cases hb : b = k
      · simp [hb]
      · simp [hb, readReg, Ne.symm hb]
    · rw [List.filter_cons_of_pos (by simpa using hk)]
      simp only [readReg, ih]
      split <;> simp_all

theorem readReg_insertReg (m : List Host.Cell) (a : Nat) (v : Byte) (b : Nat)
    (hfree : ∀ cell ∈ m, cell.1 ≠ a) :
    readReg (insertReg m a v) b = if b = a then v else readReg m b := by
  induction m with
  | nil => simp [insertReg, readReg, eq_comm]
  | cons cell rest ih =>
    obtain ⟨k, w⟩ := cell
    have hk : k ≠ a := hfree (k, w) (by simp)
    have hrest : ∀ cell ∈ rest, cell.1 ≠ a := fun c hc => hfree c (by simp [hc])
    unfold insertReg
    split
    · simp [readReg, eq_comm]
    · simp only [readReg, ih hrest]
      split <;> simp_all

theorem eraseReg_free (m : List Host.Cell) (a : Nat) : ∀ cell ∈ eraseReg m a, cell.1 ≠ a := by
  intro cell h
  simpa using (List.mem_filter.mp h).2

/-- A read after a write: the value written at that index, the old value at every other. -/
theorem readReg_writeReg (m : List Host.Cell) (a : Nat) (v : Byte) (b : Nat) :
    readReg (writeReg m a v) b = if b = a then v else readReg m b := by
  unfold writeReg
  split
  · rename_i hv
    simp [readReg_eraseReg, hv]
  · rw [readReg_insertReg _ _ _ _ (eraseReg_free m a), readReg_eraseReg]
    split <;> rfl

/-- A read after a range of writes: inside the range the byte stored there, outside it the old value. -/
theorem readReg_storeRange (data : List Byte) (m : List Host.Cell) (a b : Nat) :
    readReg (storeRange m a data) b =
      if h : a ≤ b ∧ b < a + data.length then data[b - a] else readReg m b := by
  induction data generalizing m a with
  | nil => simp [storeRange]
  | cons d rest ih =>
    simp only [storeRange, ih, readReg_writeReg, List.length_cons]
    by_cases hba : b = a
    · subst hba
      simp
    · by_cases hin : a + 1 ≤ b ∧ b < a + 1 + rest.length
      · have h' : a ≤ b ∧ b < a + (rest.length + 1) := by omega
        obtain ⟨k, rfl⟩ : ∃ k, b = a + 1 + k := ⟨b - (a + 1), by omega⟩
        have h1 : a + 1 + k - a = k + 1 := by omega
        have h2 : a + 1 + k - (a + 1) = k := by omega
        simp only [hin, h', h1, h2, and_self, dite_true, List.getElem_cons_succ]
      · have h' : ¬(a ≤ b ∧ b < a + (rest.length + 1)) := by omega
        rw [dif_neg hin, dif_neg h', if_neg hba]

/-! ## The canonical form -/

theorem Memory.wfFrom_mono {lo hi : Nat} {m : List Host.Cell} (h : Memory.wfFrom hi m = true) (hle : lo ≤ hi) :
    Memory.wfFrom lo m = true := by
  cases m with
  | nil => rfl
  | cons cell rest =>
    obtain ⟨a, v⟩ := cell
    simp only [Memory.wfFrom, Bool.and_eq_true, decide_eq_true_eq] at h ⊢
    exact ⟨⟨⟨by omega, h.1.1.2⟩, h.1.2⟩, h.2⟩

theorem Memory.wfFrom_eraseReg (m : List Host.Cell) (a lo : Nat) (h : Memory.wfFrom lo m = true) :
    Memory.wfFrom lo (eraseReg m a) = true := by
  induction m generalizing lo with
  | nil => rfl
  | cons cell rest ih =>
    obtain ⟨k, v⟩ := cell
    simp only [Memory.wfFrom, Bool.and_eq_true, decide_eq_true_eq] at h
    unfold eraseReg at ih ⊢
    by_cases hk : k = a
    · rw [List.filter_cons_of_neg (by simp [hk])]
      exact ih lo (Memory.wfFrom_mono h.2 (by omega))
    · rw [List.filter_cons_of_pos (by simpa using hk)]
      simp only [Memory.wfFrom, Bool.and_eq_true, decide_eq_true_eq]
      exact ⟨h.1, ih (k + 1) h.2⟩

theorem Memory.wfFrom_insertReg (m : List Host.Cell) (a : Nat) (v : Byte) (lo : Nat)
    (h : Memory.wfFrom lo m = true) (hlo : lo ≤ a) (ha : a < Config.regCount) (hv : v ≠ unlistedByte)
    (hfree : ∀ cell ∈ m, cell.1 ≠ a) : Memory.wfFrom lo (insertReg m a v) = true := by
  induction m generalizing lo with
  | nil => simp [insertReg, Memory.wfFrom, hlo, ha, hv]
  | cons cell rest ih =>
    obtain ⟨k, w⟩ := cell
    have hk : k ≠ a := hfree (k, w) (by simp)
    have hrest : ∀ cell ∈ rest, cell.1 ≠ a := fun c hc => hfree c (by simp [hc])
    simp only [Memory.wfFrom, Bool.and_eq_true, decide_eq_true_eq] at h
    unfold insertReg
    split
    · simp only [Memory.wfFrom, Bool.and_eq_true, decide_eq_true_eq]
      exact ⟨⟨⟨hlo, ha⟩, hv⟩, ⟨⟨by omega, h.1.1.2⟩, h.1.2⟩, h.2⟩
    · simp only [Memory.wfFrom, Bool.and_eq_true, decide_eq_true_eq]
      exact ⟨h.1, ih (k + 1) h.2 (by omega) hrest⟩

theorem Memory.wf_allZero : Memory.wf allZero = true := rfl

theorem Memory.wf_writeReg {m : List Host.Cell} (h : Memory.wf m = true) {a : Nat} (ha : a < Config.regCount) (v : Byte) :
    Memory.wf (writeReg m a v) = true := by
  unfold writeReg
  split
  · exact Memory.wfFrom_eraseReg m a 0 h
  · rename_i hv
    exact Memory.wfFrom_insertReg _ a v 0 (Memory.wfFrom_eraseReg m a 0 h) (Nat.zero_le a) ha hv (eraseReg_free m a)

theorem Memory.wf_storeRange (data : List Byte) {m : List Host.Cell} (h : Memory.wf m = true) {a : Nat}
    (ha : a + data.length ≤ Config.regCount) : Memory.wf (storeRange m a data) = true := by
  induction data generalizing m a with
  | nil => exact h
  | cons d rest ih =>
    simp only [List.length_cons] at ha
    exact ih (Memory.wf_writeReg h (by omega) d) (by omega)

end Sys2Proof.Machine
end

