-- ==== Sys2Proof/Laws/State.lean ====
section
/-! SUPPORT. One lemma per field for each update of the state: what a shared operation sets and what it leaves. -/

namespace Sys2Proof.Machine

@[simp] theorem setCursor_regs (c : Byte) (s : State) : (setCursor c s).dev.regs = s.dev.regs := rfl
@[simp] theorem setCursor_cmd (c : Byte) (s : State) : (setCursor c s).dev.cmd = c := rfl
@[simp] theorem setCursor_stream (c : Byte) (s : State) : (setCursor c s).stream = s.stream := rfl
@[simp] theorem setCursor_responses (c : Byte) (s : State) : (setCursor c s).responses = s.responses := rfl

@[simp] theorem storeBytes_regs (a : Nat) (data : List Byte) (s : State) :
    (storeBytes a data s).dev.regs = storeRange s.dev.regs a data := rfl
@[simp] theorem storeBytes_cmd (a : Nat) (data : List Byte) (s : State) :
    (storeBytes a data s).dev.cmd = s.dev.cmd := rfl
@[simp] theorem storeBytes_stream (a : Nat) (data : List Byte) (s : State) :
    (storeBytes a data s).stream = s.stream := rfl
@[simp] theorem storeBytes_responses (a : Nat) (data : List Byte) (s : State) :
    (storeBytes a data s).responses = s.responses := rfl

@[simp] theorem zeroRegs_regs (s : State) : (zeroRegs s).dev.regs = allZero := rfl
@[simp] theorem zeroRegs_cmd (s : State) : (zeroRegs s).dev.cmd = s.dev.cmd := rfl
@[simp] theorem zeroRegs_stream (s : State) : (zeroRegs s).stream = s.stream := rfl
@[simp] theorem zeroRegs_responses (s : State) : (zeroRegs s).responses = s.responses := rfl

@[simp] theorem respond_dev (r : Response) (s : State) : (respond r s).dev = s.dev := rfl
@[simp] theorem respond_stream (r : Response) (s : State) : (respond r s).stream = s.stream := rfl
@[simp] theorem respond_responses (r : Response) (s : State) :
    (respond r s).responses = s.responses ++ [r] := rfl

@[simp] theorem deliver_dev (ds : List Descriptor) (s : State) : (deliver ds s).dev = s.dev := rfl
@[simp] theorem deliver_stream (ds : List Descriptor) (s : State) :
    (deliver ds s).stream = s.stream ++ ds := rfl
@[simp] theorem deliver_responses (ds : List Descriptor) (s : State) :
    (deliver ds s).responses = s.responses := rfl

@[simp] theorem deliverFirst_dev (d : Descriptor) (s : State) : (deliverFirst d s).dev = s.dev := rfl
@[simp] theorem deliverFirst_stream (d : Descriptor) (s : State) :
    (deliverFirst d s).stream = d :: s.stream := rfl
@[simp] theorem deliverFirst_responses (d : Descriptor) (s : State) :
    (deliverFirst d s).responses = s.responses := rfl

@[simp] theorem reset_regs : State.reset.dev.regs = allZero := rfl
@[simp] theorem reset_cmd : State.reset.dev.cmd = 0x00#8 := rfl
@[simp] theorem reset_stream : State.reset.stream = [] := rfl
@[simp] theorem reset_responses : State.reset.responses = [] := rfl

end Sys2Proof.Machine
end

