-- ==== Sys2Proof/Laws/Ops.lean ====
section
/-! SUPPORT. What each shared operation does, said once; provers cite these lemmas instead of unfolding. -/

namespace Sys2Proof.Machine

@[simp] theorem setCursor_x (c : Byte) (s : State) (i : Byte) : (setCursor c s).dev.x i = s.dev.x i := rfl

@[simp] theorem zeroRegs_x (s : State) (i : Byte) : (zeroRegs s).dev.x i = 0x00#8 := rfl

theorem storeBytes_x (a : Nat) (data : List Byte) (s : State) (i : Byte) :
    (storeBytes a data s).dev.x i =
      if h : a ≤ i.toNat ∧ i.toNat < a + data.length then data[i.toNat - a] else s.dev.x i := by
  simp only [Device.x, storeBytes_regs, readReg_storeRange]

theorem nextCursor_toNat (c : Byte) : (nextCursor c).toNat = (c.toNat + 1) % 256 := by
  simp [nextCursor, BitVec.toNat_add]

theorem storedData_length (c : Byte) (data : List Byte) :
    (storedData c data).length = min data.length (256 - c.toNat) := by
  simp [storedData, copyLen, commandIndex, Config.regCount]

/-- A write never reaches past the last index (R103, R120). -/
theorem storedData_fits (c : Byte) (data : List Byte) :
    commandIndex c + (storedData c data).length ≤ Config.regCount := by
  have := c.isLt
  simp only [storedData_length, commandIndex, Config.regCount]
  omega

theorem storedData_getElem (c : Byte) (data : List Byte) (k : Nat) (h : k < (storedData c data).length) :
    (storedData c data)[k] = data[k]'(by
      have := storedData_length c data
      omega) := by
  simp [storedData]

@[simp] theorem takeDescriptor_nil {s : State} (h : s.stream = []) : takeDescriptor s = none := by
  simp [takeDescriptor, h]

@[simp] theorem takeDescriptor_cons {s : State} {d : Descriptor} {rest : List Descriptor} (h : s.stream = d :: rest) :
    takeDescriptor s = some (d, { s with stream := rest }) := by
  simp [takeDescriptor, h]

@[simp] theorem deliver_nil (s : State) : deliver [] s = s := by simp [deliver]

theorem deliver_deliver (ds es : List Descriptor) (s : State) : deliver es (deliver ds s) = deliver (ds ++ es) s := by
  simp [deliver]

end Sys2Proof.Machine
end

