-- ==== Sys2Proof/Laws/PerInstr.lean ====
section
/-! SUPPORT. Statements about every constructor of Instr as syntax, one lemma per constructor. -/

namespace Sys2Proof.Laws.EncodedHeader

/-- The encoded header spells no reserved encoding, its `R` bit is set for a quick read only, and a payload stands in a
WRITE's frame only (spec/30_encoding.md R61, R66, R68). -/
def Statement (i : Instr) : Prop :=
  headerReserved (encode i).header = false ∧
  (readBit (encode i).header = true → i = .quick true) ∧
  ((encode i).payload ≠ [] → ∃ bytes, i = .write bytes ∧ (encode i).payload = bytes)

theorem quick (readFlag : Bool) : Statement (.quick readFlag) := by
  cases readFlag <;> exact ⟨by decide, by decide, by simp [encode]⟩

theorem write (bytes : List Byte) : Statement (.write bytes) :=
  ⟨(by decide : headerReserved (headerOf .write false) = false),
    fun h => absurd h (by show ¬(readBit (headerOf .write false) = true); decide), fun _ => ⟨bytes, rfl, rfl⟩⟩

theorem recv : Statement .recv := ⟨by decide, by decide, by simp [encode]⟩

theorem reset : Statement .reset := ⟨by decide, by decide, by simp [encode]⟩

end Sys2Proof.Laws.EncodedHeader
end

