-- ==== Sys2Proof/Laws/Step.lean ====
section
/-! SUPPORT. What an operation and a step can do, said once: inversion lemmas for `exec`, `step` and the run. -/

namespace Sys2Proof.Machine

/-- An operation that answers a next state is one of the four, with that operation's own effect. -/
theorem exec_cases {i : Instr} {s t : State} (h : exec i s = .next t) :
    (∃ r, i = .quick r ∧ t = respond .noValue s) ∨
    (∃ c data, i = .write (c :: data) ∧
      t = respond writeSuccess (storeBytes (commandIndex c) (storedData c data) (setCursor c s))) ∨
    (i = .recv ∧ t = respond (.byte (s.dev.x s.dev.cmd)) (setCursor (nextCursor s.dev.cmd) s)) ∨
    (i = .reset ∧ t = respond .noValue (setCursor 0x00#8 (zeroRegs s))) := by
  cases i with
  | quick r =>
    cases h
    exact .inl ⟨r, rfl, rfl⟩
  | write bytes =>
    cases bytes with
    | nil => cases h
    | cons c data =>
      cases h
      exact .inr (.inl ⟨c, data, rfl, rfl⟩)
  | recv =>
    cases h
    exact .inr (.inr (.inl ⟨rfl, rfl⟩))
  | reset =>
    cases h
    exact .inr (.inr (.inr ⟨rfl, rfl⟩))

/-- An operation leaves the rest of the stream alone. -/
theorem exec_stream {i : Instr} {s t : State} (h : exec i s = .next t) : t.stream = s.stream := by
  obtain ⟨r, -, rfl⟩ | ⟨c, data, -, rfl⟩ | ⟨-, rfl⟩ | ⟨-, rfl⟩ := exec_cases h <;> rfl

/-- A step that answers a next state either had nothing to run or ran the operation at the head of the stream. -/
theorem step_cases {s t : State} (h : step s = .next t) :
    (s.stream = [] ∧ t = s) ∨
    (∃ d rest i, s.stream = d :: rest ∧ decode d = .instr i ∧ exec i { s with stream := rest } = .next t) := by
  unfold step at h
  cases hs : s.stream with
  | nil =>
    rw [takeDescriptor_nil hs] at h
    cases h
    exact .inl ⟨rfl, rfl⟩
  | cons d rest =>
    rw [takeDescriptor_cons hs] at h
    cases hd : decode d with
    | instr i =>
      simp only [hd] at h
      exact .inr ⟨d, rest, i, rfl, hd, h⟩
    | reject r =>
      simp only [hd] at h
      cases h

theorem execAll_append (is js : List Instr) {s t : State} (h : execAll is s = .next t) :
    execAll (is ++ js) s = execAll js t := by
  induction is generalizing s with
  | nil =>
    cases h
    rfl
  | cons i rest ih =>
    simp only [execAll, List.cons_append] at h ⊢
    cases he : exec i s with
    | next u =>
      simp only [he] at h ⊢
      exact ih h
    | fault f =>
      simp only [he] at h
      cases h
    | refused r =>
      simp only [he] at h
      cases h

end Sys2Proof.Machine
end

