-- ==== Sys2Proof/Tests/Slice0.lean ====
section
/-! SUPPORT. Small tests of single operations, with expected results from spec/95_test_vectors.md and the rules cited, and
for each statement with hypotheses a witness that meets them. -/

namespace Sys2Proof.Tests

open Sys2Proof Sys2Proof.Machine

/-- The next state of an outcome, if it is one. -/
def nextState : Host.Outcome State Fault Refusal → Option State
  | .next s => some s
  | _ => none

/-- The fault of an outcome, if it is one. -/
def faultOf : Host.Outcome State Fault Refusal → Option Fault
  | .fault f => some f
  | _ => none

/-- A machine with the cursor and the listed entries given, nothing delivered or answered. -/
def machine (cmd : Byte) (regs : List Host.Cell) : State :=
  { dev := { regs := regs, cmd := cmd }, stream := [], responses := [] }

/-- A machine in its construction state with a stream delivered. -/
def withStream (ds : List Descriptor) : State := deliver ds State.reset

/-! ## Parameters and well-formedness -/

/-- R11: REG_COUNT is 2 to the power of CURSOR_WIDTH. -/
theorem test_regCount_is_two_to_the_cursorWidth : Config.regCount = 2 ^ Config.cursorWidth := by decide

/-- R130: the one precondition, `len >= 1`, refuses the empty payload. -/
theorem test_wellFormed_refuses_empty_write : Instr.wellFormed (.write []) = false := by decide

theorem test_wellFormed_takes_address_only_write : Instr.wellFormed (.write [0x10#8]) = true := by decide

/-- The canonical form refuses a zero entry, an unsorted list, a repeat and an index beyond 255. -/
theorem test_wf_refuses_bad_lists :
    Memory.wf [(3, 0x00#8)] = false ∧ Memory.wf [(3, 0x01#8), (2, 0x01#8)] = false ∧
    Memory.wf [(3, 0x01#8), (3, 0x02#8)] = false ∧ Memory.wf [(256, 0x01#8)] = false ∧
    Memory.wf [(0, 0x01#8), (255, 0x02#8)] = true := by decide

/-! ## Decoding, words written out from R61 and R62 -/

/-- V-DEC-1: `H[7:3]` = 00000, `R` = 0, `KIND` = 00. -/
theorem test_decode_quick_write_bits : decode ⟨0b00000000#8, []⟩ = .instr (.quick false) := by decide

/-- V-DEC-2: `R` = 1. -/
theorem test_decode_quick_read_bits : decode ⟨0b00000100#8, []⟩ = .instr (.quick true) := by decide

/-- V-DEC-3: `KIND` = 01 with payload 05 AA. -/
theorem test_decode_write_bits :
    decode ⟨0b00000001#8, [0b00000101#8, 0b10101010#8]⟩ = .instr (.write [0x05#8, 0xAA#8]) := by decide

/-- V-DEC-4: `KIND` = 10. -/
theorem test_decode_recv_bits : decode ⟨0b00000010#8, []⟩ = .instr .recv := by decide

/-- V-DEC-5: `KIND` = 11. -/
theorem test_decode_reset_bits : decode ⟨0b00000011#8, []⟩ = .instr .reset := by decide

/-- V-DEC-6: `R` = 1 outside QUICK. -/
theorem test_decode_refuses_read_bit :
    ∀ h ∈ [0x05#8, 0x06#8, 0x07#8], decode ⟨h, []⟩ = .reject (.reservedDescriptor h) := by decide

/-- V-DEC-7: a bit of `H[7:3]` set. -/
theorem test_decode_refuses_high_bits :
    ∀ h ∈ [0x08#8, 0x09#8, 0x80#8, 0xFF#8], decode ⟨h, []⟩ = .reject (.reservedDescriptor h) := by decide

/-- V-DEC-8: RECV's frame with one payload byte. -/
theorem test_decode_refuses_payload :
    decode ⟨0x02#8, [0x00#8]⟩ = .reject (.unexpectedPayload 0x02#8 1) := by decide

/-- V-DEC-9: WRITE with an empty frame decodes. -/
theorem test_decode_empty_write : decode ⟨0x01#8, []⟩ = .instr (.write []) := by decide

/-- The rows of opcode_table.json as table words, WRITE's with the command byte 0x00 (log 5). -/
theorem test_table_words :
    decodeTableWord 8 0x00 = some (.quick false) ∧ decodeTableWord 8 0x01 = some (.write [0x00#8]) ∧
    decodeTableWord 8 0x02 = some .recv ∧ decodeTableWord 8 0x03 = some .reset ∧
    decodeTableWord 8 0x05 = none := by decide

/-- A table word with payload bits: the second byte is bits 15 to 8. -/
theorem test_table_word_with_payload : decodeTableWord 24 0xAA0501 = some (.write [0x05#8, 0xAA#8]) := by decide

/-- Each row runs as the first operation after reset. -/
theorem test_table_words_run_first :
    ∀ w ∈ [0x00, 0x01, 0x02, 0x03, 0x04],
      (nextState (step (State.reset.withFetchWord 8 w))).isSome = true := by decide

/-! ## The operations -/

/-- V-RST-1. -/
theorem test_reset_clears :
    (nextState (exec .reset (machine 0x7F#8 [(0x10, 0x55#8), (0xFF, 0x01#8)]))).map (·.dev) =
      some ⟨[], 0x00#8⟩ := by decide

/-- V-QCK-1 and V-QCK-2. -/
theorem test_quick_leaves_device :
    ∀ r : Bool, (nextState (exec (.quick r) (machine 0x05#8 [(5, 0xAA#8)]))).map (·.dev) =
      some ⟨[(5, 0xAA#8)], 0x05#8⟩ := by decide

/-- V-L1-4: the third data byte is dropped, none wraps to index 0, and the cursor stays at 0xFE. -/
theorem test_write_truncates :
    (nextState (exec (.write [0xFE#8, 0x01#8, 0x02#8, 0x03#8]) State.reset)).map (·.dev) =
      some ⟨[(0xFE, 0x01#8), (0xFF, 0x02#8)], 0xFE#8⟩ := by decide

/-- V-WR-10. -/
theorem test_write_of_length_zero_faults :
    faultOf (exec (.write []) State.reset) = some (.zeroLengthWrite ⟨0x01#8, []⟩) := by decide

/-- V-RD-2. -/
theorem test_recv_wraps :
    (nextState (exec .recv (machine 0xFF#8 [(0xFF, 0x42#8)]))).map (fun t => (t.dev.cmd, t.responses)) =
      some (0x00#8, [.byte 0x42#8]) := by decide

/-- V-RD-6: no sign effect at 0x7F. -/
theorem test_recv_steps_over_sign_bit :
    (nextState (exec .recv (machine 0x7F#8 [(0x7F, 0x01#8)]))).map (fun t => (t.dev.cmd, t.responses)) =
      some (0x80#8, [.byte 0x01#8]) := by decide

/-- The table of spec/95_test_vectors.md section 2.6. -/
theorem test_copyLen_table :
    [copyLen 0x00 1, copyLen 0x00 256, copyLen 0x00 300, copyLen 0x05 3, copyLen 0x80 128, copyLen 0x80 200,
      copyLen 0xFE 3, copyLen 0xFF 1, copyLen 0xFF 2] = [1, 256, 256, 3, 128, 128, 2, 1, 1] := by decide

/-! ## Assembler lines (R71, R72) -/

theorem test_parse_write_line :
    (parseLine "WRITE 0x05, 0xAA, 0xBB ; -> 0x00".toList).map (·.assemble) =
      some [⟨0x01#8, [0x05#8, 0xAA#8, 0xBB#8]⟩] := by decide

theorem test_parse_read_line :
    (parseLine "READ 0x10, 2".toList).map (·.assemble) =
      some [⟨0x01#8, [0x10#8]⟩, ⟨0x02#8, []⟩, ⟨0x02#8, []⟩] := by decide

/-- Two lines that R71 and R72 do not spell. -/
theorem test_parse_refuses : parseLine "WRITE".toList = none ∧ parseLine "RECV 0x00".toList = none := by decide

/-! ## Witnesses: for each statement with hypotheses, a state and operands that meet them -/

theorem witness_DecoderRefusesExactly :
    headerReserved 0x08#8 = true ∧ headerReserved 0x05#8 = true ∧
    (headerReserved 0x04#8 = false ∧ decode ⟨0x04#8, [0x00#8]⟩ = .reject (.unexpectedPayload 0x04#8 1)) ∧
    (headerReserved 0x03#8 = false ∧ decode ⟨0x03#8, [0x00#8]⟩ = .reject (.unexpectedPayload 0x03#8 1)) := by decide

theorem witness_StepRunsDecodedOperation :
    (withStream [⟨0x02#8, []⟩, ⟨0x03#8, []⟩]).stream = ⟨0x02#8, []⟩ :: [⟨0x03#8, []⟩] ∧
    decode ⟨0x02#8, []⟩ = .instr .recv := by decide

theorem witness_StepRefusesByName_reserved :
    (withStream [⟨0x05#8, []⟩]).stream = ⟨0x05#8, []⟩ :: [] ∧ headerReserved 0x05#8 = true := by decide

theorem witness_StepRefusesByName_payload :
    (withStream [⟨0x02#8, [0x00#8]⟩]).stream = ⟨0x02#8, [0x00#8]⟩ :: [] ∧ headerReserved 0x02#8 = false ∧
    kindOf 0x02#8 ≠ .write ∧ ([0x00#8] : List Byte) ≠ [] := by decide

theorem witness_StepIdlesOnEmptyStream : State.reset.stream = [] := by decide

theorem witness_TableWordIsRunNext : decodeTableWord 8 0x01 = some (.write [0x00#8]) := by decide

theorem witness_StepConsumesOneRespondsOnce :
    (withStream [⟨0x02#8, []⟩]).stream = ⟨0x02#8, []⟩ :: [] ∧
    ∃ t, step (withStream [⟨0x02#8, []⟩]) = .next t := ⟨rfl, _, rfl⟩

theorem witness_EntriesReachedByOperationsOnly :
    (∃ t, exec (.quick true) State.reset = .next t) ∧ (∃ t, exec (.write [0xFF#8, 0x01#8, 0x02#8]) State.reset = .next t) ∧
    (∃ t, exec .recv State.reset = .next t) ∧ (∃ t, exec .reset State.reset = .next t) ∧
    (∃ t, step State.reset = .next t) :=
  ⟨⟨_, rfl⟩, ⟨_, rfl⟩, ⟨_, rfl⟩, ⟨_, rfl⟩, ⟨_, rfl⟩⟩

theorem witness_CursorChangedByNamedOperationsOnly :
    ∃ t, step (withStream [⟨0x02#8, []⟩]) = .next t ∧ t.dev.cmd ≠ (withStream [⟨0x02#8, []⟩]).dev.cmd :=
  ⟨_, rfl, by decide⟩

theorem witness_StepKeepsCanonicalArray :
    (withStream [⟨0x01#8, [0xFF#8, 0x77#8]⟩]).Inv ∧ ∃ t, step (withStream [⟨0x01#8, [0xFF#8, 0x77#8]⟩]) = .next t :=
  ⟨rfl, _, rfl⟩

theorem witness_EqualEntriesAreEqualData :
    (machine 0x05#8 [(5, 0xAA#8)]).Inv ∧ (respond .noValue (machine 0x05#8 [(5, 0xAA#8)])).Inv ∧
    (∀ i : Byte, (machine 0x05#8 [(5, 0xAA#8)]).dev.x i = (respond .noValue (machine 0x05#8 [(5, 0xAA#8)])).dev.x i) ∧
    (machine 0x05#8 [(5, 0xAA#8)]).dev.cmd = (respond .noValue (machine 0x05#8 [(5, 0xAA#8)])).dev.cmd :=
  ⟨rfl, rfl, fun _ => rfl, rfl⟩

theorem witness_DeviceStateDecidesTheFuture :
    State.reset.dev = (withStream [⟨0x02#8, []⟩]).dev ∧ (∃ t, execAll [.recv, .reset] State.reset = .next t) ∧
    (∃ f, execAll [.recv, .write []] State.reset = .fault f) := ⟨rfl, ⟨_, rfl⟩, ⟨_, rfl⟩⟩

theorem witness_ResponseShowsCursorOnlyThroughRegister :
    (machine 0x05#8 []).dev.x (machine 0x05#8 []).dev.cmd = (machine 0xFF#8 []).dev.x (machine 0xFF#8 []).dev.cmd ∧
    (∃ t, exec .recv (machine 0x05#8 []) = .next t) ∧ (∃ t, exec .recv (machine 0xFF#8 []) = .next t) :=
  ⟨rfl, ⟨_, rfl⟩, ⟨_, rfl⟩⟩

theorem witness_ResetIsTheZeroingLoop : (machine 0x7F#8 [(0x00, 0x55#8), (0xFF, 0x01#8)]).Inv := rfl

theorem witness_ResetErasesHistory :
    (∃ t, execAll [.reset, .recv] State.reset = .next t) ∧
    (∃ t, execAll [.reset, .recv] (machine 0x7F#8 [(0, 0x55#8)]) = .next t) := ⟨⟨_, rfl⟩, ⟨_, rfl⟩⟩

theorem witness_QuickCanBeRemoved :
    (∃ t, execAll [.write [0x20#8]] State.reset = .next t) ∧
    (∃ u, execAll ([.write [0x20#8]] ++ [.recv]) State.reset = .next u) ∧
    (∃ f, execAll ([.recv] ++ [.write []]) State.reset = .fault f) := ⟨⟨_, rfl⟩, ⟨_, rfl⟩, ⟨_, rfl⟩⟩

/-- `copyLen`'s lower end: at 0xFF one byte fits. -/
theorem witness_WriteStoresItsPayload :
    0 < min ([0xFF#8, 0x77#8, 0x88#8].length - 1) (256 - (0xFF#8).toNat) ∧
    ((0x00#8).toNat < (0xFF#8).toNat ∨ (0xFF#8).toNat + 1 ≤ (0x00#8).toNat) ∧
    ((0x02#8).toNat < (0x01#8).toNat ∨
      (0x01#8).toNat + min ([0x01#8, 0x09#8].length - 1) (256 - (0x01#8).toNat) ≤ (0x02#8).toNat) := by decide

/-- `copyLen`'s upper end: at 0x00 all 256 bytes fit. -/
theorem witness_WriteStoresItsPayload_full :
    255 < min ((0x00#8 :: List.replicate 256 0x01#8).length - 1) (256 - (0x00#8).toNat) := by
  rw [List.length_cons, List.length_replicate]
  decide

theorem witness_WriteTruncatesAtIndex255 :
    (0x00#8).toNat < (0xFF#8).toNat ∧ 256 - (0xFF#8).toNat ≤ [0x77#8].length ∧
    (0x00#8 : Byte) ≠ 0xFE#8 ∧ (0x00#8 : Byte) ≠ 0xFF#8 := by decide

theorem witness_WriteAlwaysSucceeds : 1 ≤ ([0x10#8] : List Byte).length := by decide

theorem witness_WriteStoresInPayloadOrder :
    1 ≤ 1 ∧ 1 ≤ min [0x77#8, 0x88#8].length (256 - (0xFF#8).toNat) := by decide

theorem witness_ZeroLengthWriteFaults :
    (withStream [⟨0x01#8, []⟩, ⟨0x02#8, []⟩]).stream = ⟨0x01#8, []⟩ :: [⟨0x02#8, []⟩] := by decide

theorem witness_WriteIsIdempotent : (machine 0x33#8 [(0x10, 0x01#8)]).Inv := rfl

theorem witness_FullWriteErasesHistory :
    State.reset.Inv ∧ (machine 0x33#8 [(0x10, 0x01#8)]).Inv ∧ 256 ≤ (List.replicate 256 0x01#8).length :=
  ⟨rfl, rfl, List.length_replicate.ge⟩

theorem witness_SplitWriteCoversTheCrossing :
    [0x11#8, 0x22#8].length = 256 - (0xFE#8).toNat ∧ [0x33#8].length ≤ (0xFE#8).toNat ∧
    2 < ([0x11#8, 0x22#8] ++ [0x33#8]).length := by decide

theorem witness_ReadCursorWraps :
    (machine 0xFF#8 [(0x00, 0x11#8), (0xFF, 0x99#8)]).dev.cmd = 0xFF#8 ∧ (0x00#8).toNat < (0x01#8).toNat := by decide

theorem witness_FullWriteRoundTrip : (List.replicate 256 0x01#8).length = 256 := List.length_replicate

theorem witness_BlockReadBack_inside :
    [0x11#8].length ≤ 256 - (0xFF#8).toNat ∧ 1 ≤ [0x11#8].length := by decide

theorem witness_BlockReadBack_truncated :
    256 - (0xFF#8).toNat < [0x11#8, 0x22#8].length ∧ 0 < 2 ∧ 0 < 256 - (0xFF#8).toNat ∧
    1 < 2 ∧ ¬1 < 256 - (0xFF#8).toNat := by decide

theorem witness_MetPreconditionsNeverStop :
    Instr.wellFormed (.write [0x00#8]) = true ∧
    ∀ i ∈ [Instr.quick true, .write [0x00#8], .recv, .reset], i.wellFormed = true := by decide

theorem witness_LegalStreamRunsToNormalEnd :
    State.reset.stream = [] ∧ ∀ d ∈ [(⟨0x03#8, []⟩ : Descriptor), ⟨0x01#8, [0x00#8]⟩, ⟨0x04#8, []⟩, ⟨0x02#8, []⟩],
      legalDescriptor d = true := by decide

theorem witness_RunIsSequentialComposition :
    State.reset.stream = [] ∧ ∃ t, runFrom State.reset [⟨0x02#8, []⟩] = .normal t := ⟨rfl, _, rfl⟩

theorem witness_RunStopsAtZeroLengthWrite :
    State.reset.stream = [] ∧ ∃ t, runFrom State.reset [⟨0x01#8, [0x10#8, 0x01#8]⟩] = .normal t := ⟨rfl, _, rfl⟩

theorem witness_RunStopsAtRefusedDescriptor :
    State.reset.stream = [] ∧ (∃ t, runFrom State.reset [⟨0x03#8, []⟩] = .normal t) ∧
    decode ⟨0x05#8, []⟩ = .reject (.reservedDescriptor 0x05#8) := ⟨rfl, ⟨_, rfl⟩, by decide⟩

end Sys2Proof.Tests
end

section
/-! What WRITE, RECV and a step do to the device, said once in terms of their next state. -/

namespace Sys2Proof.Machine

theorem exec_quick (readFlag : Bool) (s : State) : exec (.quick readFlag) s = .next (respond .noValue s) := rfl

theorem exec_write_cons (c : Byte) (data : List Byte) (s : State) :
    exec (.write (c :: data)) s =
      .next (respond writeSuccess (storeBytes (commandIndex c) (storedData c data) (setCursor c s))) := rfl

theorem exec_recv (s : State) :
    exec .recv s = .next (respond (.byte (s.dev.x s.dev.cmd)) (setCursor (nextCursor s.dev.cmd) s)) := rfl

/-- WRITE's effect on every entry (R100, R107): its payload byte inside the range, the old value outside. -/
theorem exec_write_x {c : Byte} {data : List Byte} {s t : State} (h : exec (.write (c :: data)) s = .next t)
    (j : Byte) :
    t.dev.x j =
      if hj : c.toNat ≤ j.toNat ∧ j.toNat < c.toNat + min data.length (256 - c.toNat)
      then data[j.toNat - c.toNat] else s.dev.x j := by
  rw [exec_write_cons] at h
  cases h
  simp only [respond_dev, storeBytes_x, setCursor_x, commandIndex, storedData_length, storedData_getElem]

/-- The k-th data byte of a WRITE that is not cut off lands at `x[bytes[0] + k]` (R43). -/
theorem exec_write_x_stored {c : Byte} {data : List Byte} {s t : State} (h : exec (.write (c :: data)) s = .next t)
    {k : Nat} (hk : k < min data.length (256 - c.toNat)) :
    some (t.dev.x (BitVec.ofNat 8 (c.toNat + k))) = data[k]? := by
  have hindex : (BitVec.ofNat 8 (c.toNat + k)).toNat = c.toNat + k := by
    rw [BitVec.toNat_ofNat]
    omega
  have hlen : k < data.length := by omega
  rw [exec_write_x h, dif_pos (by omega), List.getElem?_eq_getElem hlen]
  simp only [hindex, Nat.add_sub_cancel_left]

/-- A WRITE leaves every entry outside its range as it was (R107). -/
theorem exec_write_x_frame {c : Byte} {data : List Byte} {s t : State} (h : exec (.write (c :: data)) s = .next t)
    {j : Byte} (hj : j.toNat < c.toNat ∨ c.toNat + min data.length (256 - c.toNat) ≤ j.toNat) :
    t.dev.x j = s.dev.x j := by
  rw [exec_write_x h, dif_neg (by omega)]

/-- A WRITE of one data byte stores it at the addressed entry: the start of a range is never cut off (R102). -/
theorem exec_write_one_x_same {i v : Byte} {s t : State} (h : exec (.write [i, v]) s = .next t) : t.dev.x i = v := by
  have hfits : 0 < min [v].length (256 - i.toNat) := by
    have := i.isLt
    simp only [List.length_singleton]
    omega
  simpa using exec_write_x_stored h hfits

/-- A WRITE of one data byte touches no entry but the addressed one. -/
theorem exec_write_one_x_of_ne {i v j : Byte} {s t : State} (h : exec (.write [i, v]) s = .next t) (hj : j ≠ i) :
    t.dev.x j = s.dev.x j := by
  have hne : j.toNat ≠ i.toNat := fun heq => hj (BitVec.eq_of_toNat_eq heq)
  apply exec_write_x_frame h
  simp only [List.length_singleton]
  omega

/-- An address-only WRITE moves the cursor and nothing else of the device (R101). -/
theorem exec_write_cursor_only (c : Byte) (s : State) :
    exec (.write [c]) s = .next (respond writeSuccess (setCursor c s)) := by
  rw [exec_write_cons]
  rfl

/-- `allRegs` lists exactly the entries `x[i]`, each at its own index. -/
theorem allRegs_getElem? (d : Device) (i : Byte) : d.allRegs[i.toNat]? = some (d.x i) := by
  have hi : i.toNat < Config.regCount := i.isLt
  simp [Device.allRegs, Device.x, hi]

@[simp] theorem allRegs_length (d : Device) : d.allRegs.length = 256 := by
  simp [Device.allRegs, Config.regCount]

/-- QUICK leaves the whole device as it was (R86). -/
theorem exec_quick_dev {readFlag : Bool} {s t : State} (h : exec (.quick readFlag) s = .next t) : t.dev = s.dev := by
  rw [exec_quick] at h
  cases h
  rfl

/-- A step leaves the device as it was or runs one operation on it (R141). -/
theorem step_dev_cases {s t : State} (h : step s = .next t) :
    t.dev = s.dev ∨ ∃ (i : Instr) (u : State), u.dev = s.dev ∧ exec i u = .next t := by
  obtain ⟨-, rfl⟩ | ⟨d, rest, i, -, -, hexec⟩ := step_cases h
  · exact .inl rfl
  · exact .inr ⟨i, { s with stream := rest }, rfl, hexec⟩

end Sys2Proof.Machine
end

section
/-! The register array and the cursor (spec/10_state.md): statements O12, O13 and O14. -/

namespace Sys2Proof.Proofs.DeviceState

open Sys2Proof Sys2Proof.Machine

/-- Settles O12: the listing gives the 256 entries, and a one-byte WRITE at each index shows that none is an alias. -/
theorem registerArrayHas256DistinctEntries : Obligations.RegisterArrayHas256DistinctEntries := by
  refine ⟨fun d => ⟨allRegs_length d, allRegs_getElem? d⟩, fun s i v => ?_⟩
  have h := exec_write_cons i [v] s
  exact ⟨_, h, exec_write_one_x_same h, fun _ hj => exec_write_one_x_of_ne h hj⟩

/-- A set-cursor WRITE and a RECV answer with the entry that the WRITE addresses (R22). -/
theorem execAll_setCursor_recv_reads (s : State) (i : Byte) :
    ∃ t, execAll [.write [i], .recv] s = .next t ∧
      t.responses = s.responses ++ [.result 0, .byte (s.dev.x i)] := by
  simp only [execAll, exec_write_cursor_only, exec_recv]
  exact ⟨_, rfl, by simp [writeSuccess]⟩

/-- WRITE's range in the form of O13: it starts at the command byte, takes the payload's bytes in order, and leaves
every other index alone. -/
theorem exec_write_contiguous_range {c : Byte} {data : List Byte} {s t : State}
    (h : exec (.write (c :: data)) s = .next t) :
    ∃ n : Nat, c.toNat + n ≤ 256 ∧ n ≤ data.length ∧
      (∀ k : Nat, k < n → some (t.dev.x (BitVec.ofNat 8 (c.toNat + k))) = data[k]?) ∧
      (∀ j : Byte, (j.toNat < c.toNat ∨ c.toNat + n ≤ j.toNat) → t.dev.x j = s.dev.x j) := by
  have hc := c.isLt
  exact ⟨min data.length (256 - c.toNat), by omega, by omega,
    fun _ hk => exec_write_x_stored h hk, fun _ hj => exec_write_x_frame h hj⟩

/-- Settles O13: WRITE then read-back for any entry, each operation's own effect from `exec_cases`, and the step. -/
theorem entriesReachedByOperationsOnly : Obligations.EntriesReachedByOperationsOnly := by
  refine ⟨fun s i v => ?_, execAll_setCursor_recv_reads, fun i s t h => ?_, fun _ _ => step_dev_cases⟩
  · have h := exec_write_cons i [v] s
    exact ⟨_, h, exec_write_one_x_same h⟩
  · obtain ⟨r, rfl, rfl⟩ | ⟨c, data, rfl, -⟩ | ⟨rfl, rfl⟩ | ⟨rfl, rfl⟩ := exec_cases h
    · exact ⟨rfl, rfl⟩
    · exact ⟨c, data, rfl, exec_write_contiguous_range h⟩
    · exact ⟨setCursor_x _ s, rfl⟩
    · exact zeroRegs_x s

/-- Settles O14: each operation's effect on the cursor, and a step that changes it ran an operation that is no QUICK,
since QUICK keeps it. -/
theorem cursorChangedByNamedOperationsOnly : Obligations.CursorChangedByNamedOperationsOnly := by
  refine ⟨fun i s t h => ?_, fun s t h hne => ?_⟩
  · obtain ⟨r, rfl, rfl⟩ | ⟨c, data, rfl, rfl⟩ | ⟨rfl, rfl⟩ | ⟨rfl, rfl⟩ := exec_cases h
    · exact congrArg Device.cmd (respond_dev _ s)
    · rfl
    · exact nextCursor_toNat s.dev.cmd
    · exact setCursor_cmd _ _
  · obtain hdev | ⟨i, u, hu, hexec⟩ := step_dev_cases h
    · exact absurd (congrArg Device.cmd hdev) hne
    · refine ⟨i, u, hu, hexec, ?_⟩
      rintro readFlag rfl
      exact hne (congrArg Device.cmd ((exec_quick_dev hexec).trans hu))

end Sys2Proof.Proofs.DeviceState
end

section
/-! RECVs in a row, said once: the next state that they leave and the bytes they return (spec/41_data.md R115, R117). -/

namespace Sys2Proof.Machine

/-- An operation that completes hands its next state to the operations after it (R52). -/
theorem execAll_cons_next {i : Instr} {s t : State} (h : exec i s = .next t) (rest : List Instr) :
    execAll (i :: rest) s = execAll rest t := by
  simp only [execAll, h]

/-- The state that `n` RECVs in a row leave: the cursor `n` further, modulo 256, and one byte returned for each index
that it passed. `execAll_replicate_recv` ties it to the model. -/
def afterRecvs (n : Nat) (s : State) : State :=
  { dev := { s.dev with cmd := s.dev.cmd + BitVec.ofNat 8 n }
    stream := s.stream
    responses := s.responses ++ (List.range n).map fun k => .byte (s.dev.x (s.dev.cmd + BitVec.ofNat 8 k)) }

@[simp] theorem afterRecvs_regs (n : Nat) (s : State) : (afterRecvs n s).dev.regs = s.dev.regs := rfl
@[simp] theorem afterRecvs_cmd (n : Nat) (s : State) : (afterRecvs n s).dev.cmd = s.dev.cmd + BitVec.ofNat 8 n := rfl
@[simp] theorem afterRecvs_x (n : Nat) (s : State) (i : Byte) : (afterRecvs n s).dev.x i = s.dev.x i := rfl
@[simp] theorem afterRecvs_stream (n : Nat) (s : State) : (afterRecvs n s).stream = s.stream := rfl
@[simp] theorem afterRecvs_responses (n : Nat) (s : State) :
    (afterRecvs n s).responses =
      s.responses ++ (List.range n).map fun k => .byte (s.dev.x (s.dev.cmd + BitVec.ofNat 8 k)) := rfl

@[simp] theorem afterRecvs_zero (s : State) : afterRecvs 0 s = s := by simp [afterRecvs]

/-- The cursor after one RECV and `k` more is `k + 1` further than at the start. -/
theorem nextCursor_add_ofNat (c : Byte) (k : Nat) : nextCursor c + BitVec.ofNat 8 k = c + BitVec.ofNat 8 (k + 1) := by
  rw [nextCursor, BitVec.add_assoc, Nat.add_comm k 1, BitVec.ofNat_add]

/-- One RECV and then `n` more leave what `n + 1` of them do: the first RECV's byte heads the list of those returned. -/
theorem afterRecvs_succ (n : Nat) (s : State) :
    afterRecvs n (respond (.byte (s.dev.x s.dev.cmd)) (setCursor (nextCursor s.dev.cmd) s)) = afterRecvs (n + 1) s := by
  simp [afterRecvs, nextCursor_add_ofNat, List.range_succ_eq_map, Function.comp_def]

/-- `n` RECVs in a row complete from every state (R117). -/
theorem execAll_replicate_recv (n : Nat) (s : State) :
    execAll (List.replicate n .recv) s = .next (afterRecvs n s) := by
  induction n generalizing s with
  | zero => rw [afterRecvs_zero, List.replicate_zero, execAll]
  | succ n ih => rw [List.replicate_succ, execAll_cons_next (exec_recv s), ih, afterRecvs_succ]

/-- The index `k` past an index `c`, as a sum of naturals and as a sum of bytes. -/
theorem ofNat_toNat_add (c : Byte) (k : Nat) : BitVec.ofNat 8 (c.toNat + k) = c + BitVec.ofNat 8 k := by
  rw [BitVec.ofNat_add, BitVec.ofNat_toNat, BitVec.setWidth_eq]

/-- A WRITE leaves the cursor at its command byte, whatever it stores (R101, R104). -/
theorem exec_write_cmd {c : Byte} {data : List Byte} {s t : State} (h : exec (.write (c :: data)) s = .next t) :
    t.dev.cmd = c := by
  rw [exec_write_cons] at h
  cases h
  rfl

end Sys2Proof.Machine
end

section
/-! The register array as memory (spec/20_memory.md): statement O34. -/

namespace Sys2Proof.Proofs.Memory

open Sys2Proof Sys2Proof.Machine

/-- Settles O34: the stored range gives WRITE's half; for the RECVs, WRITE leaves the cursor at `bytes[0]`, from where
RECVs in a row read ascending indices. -/
theorem writeStoresInPayloadOrder : Obligations.WriteStoresInPayloadOrder := by
  intro s c data n
  obtain ⟨t, h⟩ : ∃ t, exec (.write (c :: data)) s = .next t := ⟨_, exec_write_cons c data s⟩
  have hcmd : t.dev.cmd = c := exec_write_cmd h
  refine ⟨t, afterRecvs n t, h, fun k hpos hk => ?_, execAll_replicate_recv n t, ?_⟩
  · obtain ⟨j, rfl⟩ := Nat.exists_eq_add_of_le' hpos
    rw [hcmd, ← Nat.add_assoc, Nat.add_sub_cancel, exec_write_x_stored h hk, List.getElem?_cons_succ]
  · simp only [afterRecvs_responses, hcmd, ofNat_toNat_add]

end Sys2Proof.Proofs.Memory
end

section
/-! The device alone decides what operations do (R20, R33): from two states with the same device they complete with the
same device and the same further responses, or raise the same fault. -/

namespace Sys2Proof.Machine

theorem exec_reset (s : State) : exec .reset s = .next (respond .noValue (setCursor 0x00#8 (zeroRegs s))) := rfl

/-- RESET leaves the constructed device, whatever the state before (R80). -/
theorem exec_reset_dev {s t : State} (h : exec .reset s = .next t) : t.dev = State.reset.dev := by
  rw [exec_reset] at h
  cases h
  rfl

/-- An operation that completes does so from every state with the same device: the device it leaves and the response it
gives are the same, and the stream and the earlier responses stay behind. -/
theorem exec_next_of_dev_eq {i : Instr} {s t : State} (h : exec i s = .next t) :
    ∃ r, ∀ s' : State, s'.dev = s.dev →
      exec i s' = .next { dev := t.dev, stream := s'.stream, responses := s'.responses ++ [r] } := by
  obtain ⟨readFlag, rfl, rfl⟩ | ⟨c, data, rfl, rfl⟩ | ⟨rfl, rfl⟩ | ⟨rfl, rfl⟩ := exec_cases h
  · refine ⟨.noValue, fun s' hdev => ?_⟩
    rw [exec_quick, respond_dev, ← hdev]
    rfl
  · refine ⟨writeSuccess, fun s' hdev => ?_⟩
    simp only [exec_write_cons, respond, storeBytes, setCursor, hdev]
  · refine ⟨.byte (s.dev.x s.dev.cmd), fun s' hdev => ?_⟩
    simp only [exec_recv, respond, setCursor, hdev]
  · exact ⟨.noValue, fun s' _ => exec_reset s'⟩

/-- Whether an operation raises a fault does not depend on the state: the one that does is the empty WRITE (R106). -/
theorem exec_fault_of_fault {i : Instr} {s : State} {f : Fault} (h : exec i s = .fault f) (s' : State) :
    exec i s' = .fault f := by
  cases i with
  | write bytes =>
    cases bytes with
    | nil => exact h
    | cons c data => cases h
  | quick readFlag => cases h
  | recv => cases h
  | reset => cases h

/-- Operations in sequence that complete do so from every state with the same device, with the same device at the end
and the same responses after the earlier ones. -/
theorem execAll_next_of_dev_eq {ops : List Instr} {s t : State} (h : execAll ops s = .next t) :
    ∃ later, ∀ s' : State, s'.dev = s.dev →
      execAll ops s' = .next { dev := t.dev, stream := s'.stream, responses := s'.responses ++ later } := by
  induction ops generalizing s with
  | nil =>
    cases h
    refine ⟨[], fun s' hdev => ?_⟩
    rw [← hdev, List.append_nil]
    rfl
  | cons i rest ih =>
    cases hexec : exec i s with
    | next u =>
      rw [execAll_cons_next hexec] at h
      obtain ⟨r, hr⟩ := exec_next_of_dev_eq hexec
      obtain ⟨later, hlater⟩ := ih h
      refine ⟨r :: later, fun s' hdev => ?_⟩
      rw [execAll_cons_next (hr s' hdev)]
      simpa using hlater { dev := u.dev, stream := s'.stream, responses := s'.responses ++ [r] } rfl
    | fault f => simp [execAll, hexec] at h
    | refused r => simp [execAll, hexec] at h

/-- Operations in sequence that raise a fault raise it from every state with the same device. -/
theorem execAll_fault_of_dev_eq {ops : List Instr} {s s' : State} {f : Fault} (h : execAll ops s = .fault f)
    (hdev : s'.dev = s.dev) : execAll ops s' = .fault f := by
  induction ops generalizing s s' with
  | nil => cases h
  | cons i rest ih =>
    cases hexec : exec i s with
    | next u =>
      rw [execAll_cons_next hexec] at h
      obtain ⟨r, hr⟩ := exec_next_of_dev_eq hexec
      rw [execAll_cons_next (hr s' hdev)]
      exact ih h rfl
    | fault g =>
      simp only [execAll, hexec] at h
      simp only [execAll, exec_fault_of_fault hexec s', h]
    | refused r => simp [execAll, hexec] at h

/-- Two sequences that raise a fault from the same states still do so behind the same earlier operations. -/
theorem execAll_append_fault_congr {xs ys : List Instr} {f : Fault}
    (h : ∀ t : State, execAll xs t = .fault f ↔ execAll ys t = .fault f) (pre : List Instr) (s : State) :
    execAll (pre ++ xs) s = .fault f ↔ execAll (pre ++ ys) s = .fault f := by
  induction pre generalizing s with
  | nil => exact h s
  | cons i rest ih =>
    simp only [List.cons_append, execAll]
    cases exec i s with
    | next u => exact ih u
    | fault g => exact Iff.rfl
    | refused r => exact Iff.rfl

end Sys2Proof.Machine
end

section
/-! The control operations RESET and QUICK (spec/40_control.md): statements O20, O25 and O26. -/

namespace Sys2Proof.Proofs.Control

open Sys2Proof Sys2Proof.Machine

/-- Settles O20: the two header facts are computed, and RESET's next state is `zeroRegs` with the cursor cleared. -/
theorem resetZeroesArrayAndCursor : Obligations.ResetZeroesArrayAndCursor := by
  refine ⟨by decide, by decide, fun s => ?_⟩
  refine ⟨_, exec_reset s, zeroRegs_x s, setCursor_cmd _ _, exec_reset_dev (exec_reset s), ?_, ?_⟩
  · simp only [respond_stream, setCursor_stream, zeroRegs_stream]
  · simp only [respond_responses, setCursor_responses, zeroRegs_responses]

/-- Settles O25: the four header facts are computed, and QUICK only adds its entry without a value. -/
theorem quickChangesNoState : Obligations.QuickChangesNoState :=
  ⟨by decide, by decide, by decide, by decide, exec_quick⟩

/-- A QUICK at the head of a sequence that completes adds its own entry without a value and changes nothing else. -/
theorem execAll_quick_cons_next {post : List Instr} {t u : State} (h : execAll post t = .next u) (readFlag : Bool) :
    ∃ later, u.responses = t.responses ++ later ∧
      execAll (.quick readFlag :: post) t = .next { u with responses := t.responses ++ .noValue :: later } := by
  obtain ⟨later, hlater⟩ := execAll_next_of_dev_eq h
  have hu : u = { dev := u.dev, stream := t.stream, responses := t.responses ++ later } :=
    Host.Outcome.next.inj (h.symm.trans (hlater t rfl))
  refine ⟨later, congrArg State.responses hu, ?_⟩
  rw [execAll_cons_next (exec_quick readFlag t), hlater _ (respond_dev .noValue t), congrArg State.stream hu]
  simp only [respond_stream, respond_responses, List.append_assoc, List.singleton_append]

/-- A QUICK at the head of a sequence does not decide whether the sequence raises a fault. -/
theorem execAll_quick_cons_fault (post : List Instr) (readFlag : Bool) (f : Fault) (t : State) :
    execAll post t = .fault f ↔ execAll (.quick readFlag :: post) t = .fault f := by
  have hdev : (respond .noValue t).dev = t.dev := respond_dev _ t
  rw [execAll_cons_next (exec_quick readFlag t)]
  exact ⟨fun h => execAll_fault_of_dev_eq h hdev, fun h => execAll_fault_of_dev_eq h hdev.symm⟩

/-- Settles O26: QUICK leaves the device alone, so what follows it runs from the device it would have had without it;
the operations before the QUICK are the same in both sequences. -/
theorem quickCanBeRemoved : Obligations.QuickCanBeRemoved := by
  refine ⟨fun _ _ _ => exec_quick_dev, fun pre post readFlag s t u hpre h => ?_, fun pre post readFlag s f => ?_⟩
  · rw [execAll_append _ _ hpre] at h ⊢
    exact execAll_quick_cons_next h readFlag
  · exact execAll_append_fault_congr (execAll_quick_cons_fault post readFlag f) pre s

end Sys2Proof.Proofs.Control
end

section
/-! What WRITE and RECV answer and store, said once: the result, the bytes that fit, the first entry, and the byte that
a RECV behind a WRITE returns (spec/41_data.md). -/

namespace Sys2Proof.Machine

/-- Header 0x01 spells WRITE of its whole payload, whatever the payload's length (R60, R69). -/
theorem decode_write (bytes : List Byte) : decode ⟨0x01#8, bytes⟩ = .instr (.write bytes) := by
  have hreserved : headerReserved 0x01#8 = false := by decide
  have hkind : kindOf 0x01#8 = .write := by decide
  simp [decode, hreserved, hkind]

theorem encode_write (bytes : List Byte) : encode (.write bytes) = ⟨0x01#8, bytes⟩ := rfl

theorem exec_write_nil (s : State) : exec (.write []) s = .fault (.zeroLengthWrite ⟨0x01#8, []⟩) := rfl

/-- A WRITE that completes answers 0 (R105). -/
theorem exec_write_responses {c : Byte} {data : List Byte} {s t : State} (h : exec (.write (c :: data)) s = .next t) :
    t.responses = s.responses ++ [.result 0] := by
  rw [exec_write_cons] at h
  cases h
  rfl

/-- The bytes that do not fit behind `bytes[0]` are not stored (R103). -/
theorem storedData_take (c : Byte) (data : List Byte) : storedData c (data.take (256 - c.toNat)) = storedData c data := by
  simp only [storedData, copyLen, commandIndex, Config.regCount, List.take_take, List.length_take]
  exact List.take_eq_take_iff.mpr (by omega)

/-- A WRITE is the WRITE of the bytes that fit (R103). -/
theorem exec_write_take (c : Byte) (data : List Byte) (s : State) :
    exec (.write (c :: data.take (256 - c.toNat))) s = exec (.write (c :: data)) s := by
  rw [exec_write_cons, exec_write_cons, storedData_take]

/-- A WRITE never wraps: the entries below its first byte stay as they were (R103, R116). -/
theorem exec_write_x_below {c : Byte} {data : List Byte} {s t : State} (h : exec (.write (c :: data)) s = .next t)
    {i : Byte} (hi : i.toNat < c.toNat) : t.dev.x i = s.dev.x i :=
  exec_write_x_frame h (.inl hi)

/-- The addressed entry takes the first data byte, or stays as it was when there is none (R119). -/
theorem exec_write_x_first {c : Byte} {data : List Byte} {s t : State} (h : exec (.write (c :: data)) s = .next t) :
    t.dev.x c = data.head?.getD (s.dev.x c) := by
  have hc := c.isLt
  cases data with
  | nil => exact exec_write_x_frame h (.inr (Nat.le_refl _))
  | cons d rest =>
    have hfits : c.toNat ≤ c.toNat ∧ c.toNat < c.toNat + min (d :: rest).length (256 - c.toNat) := by
      rw [List.length_cons]
      omega
    rw [exec_write_x h, dif_pos hfits]
    simp

/-- The RECV behind a WRITE returns the entry at `bytes[0]`, where the WRITE left the cursor (R104). -/
theorem exec_recv_after_write {c : Byte} {data : List Byte} {s t : State} (h : exec (.write (c :: data)) s = .next t) :
    ∃ u, exec .recv t = .next u ∧ u.responses = t.responses ++ [.byte (t.dev.x c)] :=
  ⟨_, exec_recv t, by rw [respond_responses, setCursor_responses, exec_write_cmd h]⟩

end Sys2Proof.Machine
end

section
/-! The data operations WRITE and RECV (spec/41_data.md): statements O27 to O33, O40, O41 and O43. -/

namespace Sys2Proof.Proofs.Data

open Sys2Proof Sys2Proof.Machine

/-- Settles O27: cursor, stored range, frame, stream and result, each by the lemma about WRITE's next state. -/
theorem writeStoresItsPayload : Obligations.WriteStoresItsPayload := by
  refine ⟨fun bytes => ⟨decode_write bytes, encode_write bytes⟩, fun s c data => ?_, exec_write_nil⟩
  have h := exec_write_cons c data s
  refine ⟨_, h, exec_write_cmd h, fun k hk => ?_, fun i hi => ?_, exec_stream h, exec_write_responses h⟩
  · rw [exec_write_x_stored h hk, Nat.add_comm 1 k, List.getElem?_cons_succ]
  · exact exec_write_x_frame h hi

/-- The byte addressed to index 255 is stored there when the payload reaches it (R103). -/
theorem exec_write_x_last {c : Byte} {data : List Byte} {s t : State} (h : exec (.write (c :: data)) s = .next t)
    (hlen : 256 - c.toNat ≤ data.length) : some (t.dev.x 0xFF#8) = data[255 - c.toNat]? := by
  have hc := c.isLt
  have hlast : c.toNat + (255 - c.toNat) = 255 := by omega
  rw [← exec_write_x_stored h (k := 255 - c.toNat) (by omega), hlast]

/-- P4's example: of WRITE FE 01 02 03 the first two data bytes are stored and the third is dropped. -/
theorem exec_write_truncated_example {s t : State}
    (h : exec (.write [0xFE#8, 0x01#8, 0x02#8, 0x03#8]) s = .next t) :
    t.dev.x 0xFE#8 = 0x01#8 ∧ t.dev.x 0xFF#8 = 0x02#8 ∧
      ∀ i : Byte, i ≠ 0xFE#8 → i ≠ 0xFF#8 → t.dev.x i = s.dev.x i := by
  refine ⟨exec_write_x_first h, Option.some.inj (exec_write_x_last h (by decide)), fun i hFE hFF => ?_⟩
  have hbelow : i.toNat < (0xFE#8).toNat := by bv_omega
  exact exec_write_x_below h hbelow

/-- Settles O30: the WRITE answers as the one cut off at index 255, and P4's example is one such WRITE. -/
theorem writeTruncatesAtIndex255 : Obligations.WriteTruncatesAtIndex255 := by
  refine ⟨fun s c data => ?_, fun s => ?_⟩
  · have h := exec_write_cons c data s
    exact ⟨_, h, (exec_write_take c data s).trans h, exec_write_responses h, fun _ => exec_write_x_below h,
      exec_write_x_last h⟩
  · have h := exec_write_cons 0xFE#8 [0x01#8, 0x02#8, 0x03#8] s
    obtain ⟨hFE, hFF, hframe⟩ := exec_write_truncated_example h
    exact ⟨_, h, hFE, hFF, hframe, exec_write_responses h⟩

/-- Settles O33: the two forms of the range end agree, and the case split is the one of `exec_write_x`. -/
theorem writeChangesExactlyItsRange : Obligations.WriteChangesExactlyItsRange := by
  intro s c data
  have hc := c.isLt
  have hend : c.toNat + min data.length (256 - c.toNat) = min (c.toNat + data.length) 256 := by omega
  have h := exec_write_cons c data s
  refine ⟨hend, _, h, exec_write_cmd h, fun i => ?_⟩
  rw [← hend, exec_write_x h]
  split
  · exact List.getElem?_eq_getElem _
  · rfl

/-- Settles O41: at 255 the increment gives 0, RECV changes no entry, and a WRITE only reaches upwards. -/
theorem readCursorWraps : Obligations.ReadCursorWraps := by
  refine ⟨fun s hcmd => ?_, fun s c data => ?_⟩
  · have h := exec_recv s
    rw [hcmd, show nextCursor 0xFF#8 = 0x00#8 by decide] at h
    exact ⟨_, _, h, rfl, rfl, exec_recv _, rfl⟩
  · have h := exec_write_cons c data s
    exact ⟨_, h, fun _ => exec_write_x_below h⟩

/-- P3's example: WRITE 05 AA BB CC fills three entries, and the three RECVs behind it return them in order. -/
theorem exec_write_then_three_recvs_example {s t : State}
    (h : exec (.write [0x05#8, 0xAA#8, 0xBB#8, 0xCC#8]) s = .next t) :
    t.dev.x 0x05#8 = 0xAA#8 ∧ t.dev.x 0x06#8 = 0xBB#8 ∧ t.dev.x 0x07#8 = 0xCC#8 ∧
      (afterRecvs 3 t).responses = t.responses ++ [.byte 0xAA#8, .byte 0xBB#8, .byte 0xCC#8] := by
  have h5 : t.dev.x 0x05#8 = 0xAA#8 := exec_write_x_first h
  have h6 : t.dev.x 0x06#8 = 0xBB#8 := Option.some.inj (exec_write_x_stored h (k := 1) (by decide))
  have h7 : t.dev.x 0x07#8 = 0xCC#8 := Option.some.inj (exec_write_x_stored h (k := 2) (by decide))
  refine ⟨h5, h6, h7, ?_⟩
  rw [afterRecvs_responses, exec_write_cmd h, ← h5, ← h6, ← h7]
  rfl

/-- Settles O43: WRITE leaves the cursor on its first entry, and P3's three RECVs start from there. -/
theorem receiveAfterWriteReadsItsFirstByte : Obligations.ReceiveAfterWriteReadsItsFirstByte := by
  refine ⟨fun s c data => ?_, fun s => ?_⟩
  · have h := exec_write_cons c data s
    obtain ⟨u, hrecv, hresponses⟩ := exec_recv_after_write h
    exact ⟨_, u, h, hrecv, hresponses, exec_write_x_first h⟩
  · have h := exec_write_cons 0x05#8 [0xAA#8, 0xBB#8, 0xCC#8] s
    obtain ⟨h5, h6, h7, hresponses⟩ := exec_write_then_three_recvs_example h
    exact ⟨_, _, h, h5, h6, h7, exec_write_cmd h, execAll_replicate_recv 3 _, hresponses, rfl⟩

/-- Settles O28: the cursor is `bytes[0]` for every payload, and an address-only WRITE moves nothing else. -/
theorem writeSetsCursorFirst : Obligations.WriteSetsCursorFirst := by
  refine ⟨fun s c data => ?_, fun s c => ?_⟩
  · have h := exec_write_cons c data s
    exact ⟨_, h, exec_write_cmd h⟩
  · have h := exec_write_cursor_only c s
    obtain ⟨u, hrecv, hresponses⟩ := exec_recv_after_write h
    exact ⟨_, u, h, rfl, hrecv, hresponses⟩

/-- The indices from an 8-bit index to 255, counted (R102). -/
theorem length_filter_range_ge (c : Byte) : ((List.range 256).filter fun i => c.toNat ≤ i).length = 256 - c.toNat := by
  rw [← List.Ico.zero_bot, List.Ico.filter_le, List.Ico.length, Nat.zero_max]

/-- Settles O29: the count is `storedData_length`, and the room behind `bytes[0]` is arithmetic on a byte. -/
theorem storedCountIsCopyLen : Obligations.StoredCountIsCopyLen := by
  refine ⟨fun c data => ⟨storedData_length c data, ?_, fun s => ?_⟩, fun c => ?_⟩
  · rw [storedData_length]
    omega
  · exact ⟨_, exec_write_cons c data s, rfl⟩
  · have hc := c.isLt
    exact ⟨by omega, by omega, by bv_omega, by bv_omega, length_filter_range_ge c⟩

/-- Settles O31: the cursor stays at `bytes[0]`, where the RECV behind the WRITE reads. -/
theorem writeDoesNotAdvanceCursor : Obligations.WriteDoesNotAdvanceCursor := by
  intro s c data
  have h := exec_write_cons c data s
  obtain ⟨u, hrecv, hresponses⟩ := exec_recv_after_write h
  exact ⟨_, u, h, exec_write_cmd h, hrecv, hresponses⟩

/-- Settles O32: a payload of length at least 1 has a command byte, and such a WRITE answers 0. -/
theorem writeAlwaysSucceeds : Obligations.WriteAlwaysSucceeds := by
  intro s bytes hlen
  cases bytes with
  | nil => simp at hlen
  | cons c data =>
    have h := exec_write_cons c data s
    exact ⟨_, h, exec_write_responses h⟩

/-- Settles O40: the two header facts are computed, and RECV's next state has the increment of `nextCursor_toNat`. -/
theorem receiveReturnsThenAdvances : Obligations.ReceiveReturnsThenAdvances := by
  refine ⟨by decide, by decide, fun s => ⟨_, exec_recv s, ?_, nextCursor_toNat s.dev.cmd, ?_, ?_⟩⟩
  · rw [respond_responses, setCursor_responses]
  · rw [respond_dev, setCursor_regs]
  · rw [respond_stream, setCursor_stream]

end Sys2Proof.Proofs.Data
end

section
/-! Operations that meet their precondition complete, one by one and in sequence (spec/60_exceptions.md R130). -/

namespace Sys2Proof.Machine

theorem wellFormed_write_iff (bytes : List Byte) : (Instr.write bytes).wellFormed = true ↔ 1 ≤ bytes.length :=
  decide_eq_true_iff

/-- A WRITE's length is the only precondition that there is (R130). -/
theorem wellFormed_iff (i : Instr) :
    i.wellFormed = true ↔ ∀ bytes : List Byte, i = .write bytes → 1 ≤ bytes.length := by
  cases i with
  | write bytes =>
    rw [wellFormed_write_iff]
    refine ⟨fun hlen bytes' heq => ?_, fun h => h bytes rfl⟩
    cases heq
    exact hlen
  | quick readFlag => exact iff_of_true rfl fun _ heq => nomatch heq
  | recv => exact iff_of_true rfl fun _ heq => nomatch heq
  | reset => exact iff_of_true rfl fun _ heq => nomatch heq

/-- QUICK, RECV and RESET have a next state from every state; a WRITE that meets its precondition succeeds (R105). -/
theorem exec_next_of_wellFormed {i : Instr} (h : i.wellFormed = true) (s : State) : ∃ t, exec i s = .next t := by
  cases i with
  | quick readFlag => exact ⟨_, exec_quick readFlag s⟩
  | write bytes =>
    obtain ⟨t, hexec, -⟩ := Proofs.Data.writeAlwaysSucceeds s bytes ((wellFormed_write_iff bytes).mp h)
    exact ⟨t, hexec⟩
  | recv => exact ⟨_, exec_recv s⟩
  | reset => exact ⟨_, exec_reset s⟩

/-- No well-formed operation stops the ones behind it, since each completes in whatever state it meets (R52, R130). -/
theorem execAll_next_of_wellFormed {ops : List Instr} (h : ∀ i ∈ ops, i.wellFormed = true) (s : State) :
    ∃ t, execAll ops s = .next t := by
  induction ops generalizing s with
  | nil => exact ⟨s, rfl⟩
  | cons i rest ih =>
    obtain ⟨hi, hrest⟩ := List.forall_mem_cons.mp h
    obtain ⟨u, hexec⟩ := exec_next_of_wellFormed hi s
    rw [execAll_cons_next hexec]
    exact ih hrest u

end Sys2Proof.Machine
end

section
/-! Exceptions (spec/60_exceptions.md): statement O48. -/

namespace Sys2Proof.Proofs.Exceptions

open Sys2Proof Sys2Proof.Machine

/-- Settles O48: which operations are well-formed, then completion of one of them, then induction on a sequence. -/
theorem metPreconditionsNeverStop : Obligations.MetPreconditionsNeverStop :=
  ⟨wellFormed_iff, fun _ s h => exec_next_of_wellFormed h s, fun _ s h => execAll_next_of_wellFormed h s⟩

end Sys2Proof.Proofs.Exceptions
end

section
/-! The construction state: its entries, and the run that delivers nothing (spec/70_reset_and_hazards.md R160, R171). -/

namespace Sys2Proof.Machine

@[simp] theorem reset_x (i : Byte) : State.reset.dev.x i = 0x00#8 := readReg_allZero i.toNat

/-- An idle machine to which nothing is delivered takes no step: a step is taken per delivered descriptor (R171). -/
theorem runFrom_nil {s : State} (h : s.stream = []) : runFrom s [] = .normal s := by
  rw [runFrom, deliver_nil, h, List.length_nil, runSteps]

end Sys2Proof.Machine
end

section
/-! Reset and hazards (spec/70_reset_and_hazards.md): statement O11. -/

namespace Sys2Proof.Proofs.ResetAndHazards

open Sys2Proof Sys2Proof.Machine

/-- Settles O11: the fields of the construction state, and `run` starts there by definition (R160). -/
theorem constructedDeviceIsAllZero : Obligations.ConstructedDeviceIsAllZero :=
  ⟨reset_x, reset_cmd, runFrom_nil reset_stream, fun _ => rfl⟩

end Sys2Proof.Proofs.ResetAndHazards
end

section
/-! The header's fields and the decoder, said once: an unreserved header is laid out from its own fields, and decoding it
gives the operation of its kind or refuses the frame's payload (spec/30_encoding.md R61 to R70). -/

namespace Sys2Proof

/-- The two kind bits decide the kind, and each kind has bits of its own (R62). -/
theorem kindOf_eq_iff (h : Byte) (k : Kind) : kindOf h = k ↔ h.extractLsb' 0 2 = kindBits k := by
  unfold kindOf
  generalize h.extractLsb' 0 2 = bits
  revert bits
  cases k <;> decide

theorem headerReserved_iff (h : Byte) :
    headerReserved h = true ↔ reservedField h ≠ 0#5 ∨ (readBit h = true ∧ kindOf h ≠ .quick) := by
  simp only [headerReserved, Bool.or_eq_true, Bool.and_eq_true, decide_eq_true_eq]

/-- A header whose reserved bits are clear is nothing but its `KIND` and `R` fields (R61). -/
theorem headerOf_kindOf_readBit {h : Byte} (hres : reservedField h = 0#5) : headerOf (kindOf h) (readBit h) = h := by
  have hfields : h = (reservedField h ++ BitVec.ofBool (readBit h) ++ h.extractLsb' 0 2).cast (by decide) := by
    ext i hi
    simp only [reservedField, readBit, BitVec.getElem_cast, BitVec.getElem_append, BitVec.getElem_extractLsb',
      BitVec.getElem_ofBool]
    interval_cases i <;> simp
  rw [hres, (kindOf_eq_iff h _).mp rfl] at hfields
  exact hfields.symm

/-- The operation that a descriptor's `KIND` and `R` fields name, with the frame's payload for a WRITE.
`decode_of_unreserved` ties it to the decoder. -/
def namedOperation (d : Descriptor) : Instr :=
  match kindOf d.header with
  | .quick => .quick (readBit d.header)
  | .write => .write d.payload
  | .recv => .recv
  | .reset => .reset

theorem decode_of_reserved {d : Descriptor} (h : headerReserved d.header = true) :
    decode d = .reject (.reservedDescriptor d.header) := by
  simp only [decode, h, if_true]

/-- Behind an unreserved header only a payload outside WRITE's frame is refused (R66, R68). -/
theorem decode_of_unreserved {d : Descriptor} (h : headerReserved d.header = false) :
    decode d = if kindOf d.header = .write ∨ d.payload = [] then .instr (namedOperation d)
      else .reject (.unexpectedPayload d.header d.payload.length) := by
  cases hk : kindOf d.header <;> simp [decode, h, hk, namedOperation, withoutPayload]

/-- An accepted descriptor is the encoding of the operation it names: neither header nor payload holds more. -/
theorem encode_namedOperation {d : Descriptor} (h : headerReserved d.header = false)
    (hpayload : kindOf d.header = .write ∨ d.payload = []) : encode (namedOperation d) = d := by
  have hfields := (headerReserved_iff d.header).not.mp (by simp [h])
  obtain ⟨hres, hread⟩ := not_or.mp hfields
  have hheader := headerOf_kindOf_readBit (not_ne_iff.mp hres)
  obtain ⟨header, payload⟩ := d
  cases hk : kindOf header <;> simp_all [namedOperation, encode]

/-- Every operation decodes from its own encoding. -/
theorem decode_encode (i : Instr) : decode (encode i) = .instr i := by
  cases i with
  | quick readFlag => cases readFlag <;> decide
  | write bytes => exact Machine.decode_write bytes
  | recv => decide
  | reset => decide

/-- What decodes to an operation is that operation's encoding. -/
theorem eq_encode_of_decode {d : Descriptor} {i : Instr} (h : decode d = .instr i) : d = encode i := by
  cases hres : headerReserved d.header with
  | true => simp [decode_of_reserved hres] at h
  | false =>
    rw [decode_of_unreserved hres] at h
    split at h
    case isTrue hpayload =>
      rw [← Decoded.instr.inj h, encode_namedOperation hres hpayload]
    case isFalse => cases h

end Sys2Proof
end

section
/-! Decoding and encoding (spec/30_encoding.md): statements O1 to O5. -/

namespace Sys2Proof.Proofs.Encoding

open Sys2Proof Sys2Proof.Machine

/-- Settles O3: one direction is the decoder on an encoding, the other that an accepted descriptor has no bit or byte
beyond the operation's own. -/
theorem decodeEncodeAgree : Obligations.DecodeEncodeAgree := by
  refine fun d i => ⟨eq_encode_of_decode, ?_⟩
  rintro rfl
  exact decode_encode i

/-- Settles O4: a reserved header is refused as such; behind any other the decoder refuses exactly a payload that is no
WRITE's. -/
theorem decoderRefusesExactly : Obligations.DecoderRefusesExactly := by
  intro d r
  have hreserved : headerReserved d.header = true ↔ d.header.extractLsb' 3 5 ≠ 0#5 ∨
      (d.header.getLsbD 2 = true ∧ d.header.extractLsb' 0 2 ≠ 0b00#2) := by
    rw [headerReserved_iff, ne_eq (kindOf _), kindOf_eq_iff]
    rfl
  have hwrite : kindOf d.header = .write ↔ d.header.extractLsb' 0 2 = 0b01#2 := kindOf_eq_iff d.header .write
  simp only [← hreserved, ne_eq, ← hwrite]
  cases hres : headerReserved d.header with
  | true => simp [decode_of_reserved hres, eq_comm]
  | false =>
    rw [decode_of_unreserved hres]
    split
    case isTrue hpayload => simpa using fun hk hp => absurd hpayload (not_or.mpr ⟨hk, hp⟩)
    case isFalse hpayload => simp [not_or.mp hpayload, eq_comm]

/-- The bytes of an encoded operation are a frame that decodes to it (R67). -/
theorem decodeBytes_toBytes_encode (i : Instr) : decodeBytes (encode i).toBytes = some (.instr i) :=
  congrArg some (decode_encode i)

/-- Settles O5: the lengths are those of a header and the payload. -/
theorem descriptorLengths : Obligations.DescriptorLengths :=
  ⟨fun bytes => Nat.add_comm bytes.length 1, fun _ => rfl, rfl, rfl, decodeBytes_toBytes_encode⟩

/-- Settles O1: each of the spec's words is the bytes of its operation's encoding. -/
theorem specWordsDecode : Obligations.SpecWordsDecode :=
  ⟨decodeBytes_toBytes_encode (.quick false), decodeBytes_toBytes_encode (.quick true),
    decodeBytes_toBytes_encode (.write [0x05#8, 0xAA#8]), decodeBytes_toBytes_encode (.write []),
    decodeBytes_toBytes_encode .recv, decodeBytes_toBytes_encode .reset⟩

/-- A row of the opcode map matches exactly the unreserved headers of its own kind (R70). -/
theorem hits_iff {row : OpcodeRow} (hrow : row ∈ opcodeMap) (h : Byte) :
    row.hits h = true ↔ headerReserved h = false ∧ kindOf h = row.kind := by
  revert row h
  decide

theorem eq_of_mem_opcodeMap_of_kind_eq :
    ∀ row ∈ opcodeMap, ∀ row' ∈ opcodeMap, row.kind = row'.kind → row = row' := by decide

theorem exists_opcodeMap_row_of_kind (k : Kind) : ∃ row ∈ opcodeMap, k = row.kind := by
  cases k <;> decide

/-- Settles O2: a row matches by its kind, no two rows share a kind, and every kind has a row. -/
theorem opcodeMapRowsDisjoint : Obligations.OpcodeMapRowsDisjoint := by
  refine fun h => ⟨fun row hrow row' hrow' hhits hhits' => ?_, fun row hrow => (hits_iff hrow h).mp, fun hnone => ?_⟩
  · have hkind := ((hits_iff hrow h).mp hhits).2
    have hkind' := ((hits_iff hrow' h).mp hhits').2
    exact eq_of_mem_opcodeMap_of_kind_eq row hrow row' hrow' (hkind.symm.trans hkind')
  · obtain ⟨row, hrow, hkind⟩ := exists_opcodeMap_row_of_kind (kindOf h)
    have hmiss : ¬(headerReserved h = false ∧ kindOf h = row.kind) := by
      rw [← hits_iff hrow h, hnone row hrow]
      decide
    exact (Bool.not_eq_false _).mp fun hres => hmiss ⟨hres, hkind⟩

end Sys2Proof.Proofs.Encoding
end

section
/-! The step on a delivered descriptor, said once: it runs the operation that the descriptor decodes to, or is refused
with the decoder's reason (spec/60_exceptions.md R134, R136). -/

namespace Sys2Proof.Machine

theorem step_of_decode {s : State} {d : Descriptor} {rest : List Descriptor} {i : Instr} (hs : s.stream = d :: rest)
    (hd : decode d = .instr i) : step s = exec i { s with stream := rest } := by
  simp only [step, takeDescriptor_cons hs, hd]

theorem step_of_reject {s : State} {d : Descriptor} {rest : List Descriptor} {r : Reject} (hs : s.stream = d :: rest)
    (hd : decode d = .reject r) : step s = .refused (refusalOf r) := by
  simp only [step, takeDescriptor_cons hs, hd]

theorem step_of_stream_nil {s : State} (hs : s.stream = []) : step s = .next s := by
  simp only [step, takeDescriptor_nil hs, idle]

/-- An operation that completes adds one response behind the earlier ones (R171). -/
theorem exec_responses {i : Instr} {s t : State} (h : exec i s = .next t) : ∃ r, t.responses = s.responses ++ [r] := by
  obtain ⟨r, hr⟩ := exec_next_of_dev_eq h
  exact ⟨r, congrArg State.responses (Host.Outcome.next.inj (h.symm.trans (hr s rfl)))⟩

/-- A table word that names an operation is framed as a descriptor of that operation. -/
theorem decode_frameOfWord {nbits w : Nat} {i : Instr} (h : decodeTableWord nbits w = some i) :
    decode (frameOfWord nbits w) = .instr i := by
  unfold decodeTableWord at h
  split at h
  case h_1 j hj => rw [hj, Option.some.inj h]
  case h_2 => cases h

end Sys2Proof.Machine
end

section
/-! The step: statements O6 to O10. -/

namespace Sys2Proof.Proofs.Step

open Sys2Proof Sys2Proof.Machine

/-- Settles O6: the step on a descriptor that decodes. -/
theorem stepRunsDecodedOperation : Obligations.StepRunsDecodedOperation :=
  fun _ _ _ _ => step_of_decode

/-- Settles O7: the decoder's two refusals, passed on by the step. -/
theorem stepRefusesByName : Obligations.StepRefusesByName := by
  refine fun s d rest hs => ⟨fun hres => ?_, fun hres hkind hpayload => ?_⟩
  · exact step_of_reject hs (decode_of_reserved hres)
  · refine step_of_reject hs (r := .unexpectedPayload d.header d.payload.length) ?_
    rw [decode_of_unreserved hres, if_neg (not_or.mpr ⟨hkind, hpayload⟩)]

/-- Settles O8: no descriptor is taken, so the step idles. -/
theorem stepIdlesOnEmptyStream : Obligations.StepIdlesOnEmptyStream :=
  fun _ => step_of_stream_nil

/-- Settles O9: the word's frame stands at the head of the stream, and taking it off gives the state back. -/
theorem tableWordIsRunNext : Obligations.TableWordIsRunNext :=
  fun s nbits w _ h => step_of_decode (deliverFirst_stream (frameOfWord nbits w) s) (decode_frameOfWord h)

/-- Settles O10: a step on a delivered descriptor ran one operation, which leaves the rest of the stream alone and
answers once. -/
theorem stepConsumesOneRespondsOnce : Obligations.StepConsumesOneRespondsOnce := by
  intro s t d rest hs h
  obtain ⟨hnil, -⟩ | ⟨d', rest', i, hs', -, hexec⟩ := step_cases h
  · simp [hs] at hnil
  · obtain ⟨-, rfl⟩ := List.cons.inj (hs.symm.trans hs')
    obtain ⟨r, hr⟩ := exec_responses hexec
    exact ⟨exec_stream hexec, r, hr⟩

end Sys2Proof.Proofs.Step
end

section
/-! The canonical form of the register array: every operation and every step keeps it, and two canonical arrays that
read alike are one list (spec/10_state.md R21; log 8). -/

namespace Sys2Proof.Machine

/-- What the canonical form says of a listed entry and of the list behind it. -/
theorem Memory.wfFrom_cons_iff (lo a : Nat) (v : Byte) (rest : List Host.Cell) :
    Memory.wfFrom lo ((a, v) :: rest) = true ↔
      lo ≤ a ∧ a < Config.regCount ∧ v ≠ unlistedByte ∧ Memory.wfFrom (a + 1) rest = true := by
  simp [Memory.wfFrom, and_assoc]

/-- A canonical list lists no index below its start. -/
theorem readReg_of_lt_of_wfFrom {lo : Nat} {m : List Host.Cell} (h : Memory.wfFrom lo m = true) {a : Nat}
    (ha : a < lo) : readReg m a = unlistedByte := by
  induction m generalizing lo with
  | nil => rfl
  | cons cell rest ih =>
    obtain ⟨b, v⟩ := cell
    obtain ⟨hlo, -, -, hrest⟩ := (Memory.wfFrom_cons_iff lo b v rest).mp h
    rw [readReg, if_neg (by omega), ih hrest (by omega)]

/-- A canonical list starts at its first index. -/
theorem Memory.wfFrom_head {lo a : Nat} {v : Byte} {rest : List Host.Cell}
    (h : Memory.wfFrom lo ((a, v) :: rest) = true) : Memory.wfFrom a ((a, v) :: rest) = true := by
  obtain ⟨-, hentry⟩ := (Memory.wfFrom_cons_iff lo a v rest).mp h
  exact (Memory.wfFrom_cons_iff a a v rest).mpr ⟨Nat.le_refl a, hentry⟩

/-- At its first index a canonical list reads as no list that starts later does. -/
theorem readReg_head_ne {a lo : Nat} {v : Byte} {m : List Host.Cell} (rest : List Host.Cell) (hv : v ≠ unlistedByte)
    (hm : Memory.wfFrom lo m = true) (ha : a < lo) : readReg ((a, v) :: rest) a ≠ readReg m a := by
  rw [readReg_of_lt_of_wfFrom hm ha, readReg, if_pos rfl]
  exact hv

/-- Lists behind one and the same entry, read alike: the entries before them do not hide a difference. -/
theorem readReg_tail_eq {a : Nat} {v w : Byte} {m n : List Host.Cell} (hm : Memory.wfFrom (a + 1) m = true)
    (hn : Memory.wfFrom (a + 1) n = true) {c : Nat} (h : readReg ((a, v) :: m) c = readReg ((a, w) :: n) c) :
    readReg m c = readReg n c := by
  by_cases hc : a = c
  · subst hc
    rw [readReg_of_lt_of_wfFrom hm (Nat.lt_succ_self a), readReg_of_lt_of_wfFrom hn (Nat.lt_succ_self a)]
  · simpa only [readReg, if_neg hc] using h

/-- Canonical lists that read alike at all 256 indices are equal: the one whose first index is the smaller reads there as
the other does not, so both start with one and the same entry, and so on behind it. -/
theorem Memory.eq_of_wfFrom_of_readReg_eq {lo : Nat} {m n : List Host.Cell} (hm : Memory.wfFrom lo m = true)
    (hn : Memory.wfFrom lo n = true) (hread : ∀ a < Config.regCount, readReg m a = readReg n a) : m = n := by
  induction m generalizing lo n with
  | nil =>
    cases n with
    | nil => rfl
    | cons cell n =>
      obtain ⟨b, w⟩ := cell
      obtain ⟨-, hb, hw, -⟩ := (Memory.wfFrom_cons_iff lo b w n).mp hn
      exact absurd (hread b hb).symm (readReg_head_ne n hw (lo := b + 1) rfl (Nat.lt_succ_self b))
  | cons cell m ih =>
    obtain ⟨a, v⟩ := cell
    obtain ⟨-, ha, hv, hmtail⟩ := (Memory.wfFrom_cons_iff lo a v m).mp hm
    cases n with
    | nil => exact absurd (hread a ha) (readReg_head_ne m hv (lo := a + 1) rfl (Nat.lt_succ_self a))
    | cons cell n =>
      obtain ⟨b, w⟩ := cell
      obtain ⟨-, hb, hw, hntail⟩ := (Memory.wfFrom_cons_iff lo b w n).mp hn
      obtain hlt | rfl | hlt := Nat.lt_trichotomy a b
      · exact absurd (hread a ha) (readReg_head_ne m hv (Memory.wfFrom_head hn) hlt)
      · have hvw : v = w := by simpa only [readReg, if_true] using hread a ha
        rw [hvw, ih hmtail hntail fun c hc => readReg_tail_eq hmtail hntail (hread c hc)]
      · exact absurd (hread b hb).symm (readReg_head_ne n hw (Memory.wfFrom_head hm) hlt)

/-- Canonical devices are equal when their entries and cursors are (log 8). -/
theorem Device.eq_of_x_eq {d e : Device} (hd : Memory.wf d.regs = true) (he : Memory.wf e.regs = true)
    (hx : ∀ i : Byte, d.x i = e.x i) (hcmd : d.cmd = e.cmd) : d = e := by
  have hregs : d.regs = e.regs := by
    refine Memory.eq_of_wfFrom_of_readReg_eq hd he fun a ha => ?_
    have hindex : (BitVec.ofNat 8 a).toNat = a := Nat.mod_eq_of_lt ha
    simpa only [Device.x, hindex] using hx (BitVec.ofNat 8 a)
  exact congrArg₂ Device.mk hregs hcmd

/-- Every operation keeps the canonical form: WRITE stores only what fits, and RESET lists nothing. -/
theorem exec_keeps_inv {i : Instr} {s t : State} (hs : s.Inv) (h : exec i s = .next t) : t.Inv := by
  obtain ⟨r, -, rfl⟩ | ⟨c, data, -, rfl⟩ | ⟨-, rfl⟩ | ⟨-, rfl⟩ := exec_cases h
  · exact hs
  · exact Memory.wf_storeRange (storedData c data) hs (storedData_fits c data)
  · exact hs
  · exact Memory.wf_allZero

end Sys2Proof.Machine
end

section
/-! The canonical form: statements O15, O16, O17, O22, O36 and O38. -/

namespace Sys2Proof.Proofs.CanonicalArray

open Sys2Proof Sys2Proof.Machine

/-- Settles O15: the constructed array lists nothing. -/
theorem constructedArrayIsCanonical : Obligations.ConstructedArrayIsCanonical :=
  Memory.wf_allZero

/-- Settles O16: a step idles or runs one operation on the same device, and every operation keeps the form. -/
theorem stepKeepsCanonicalArray : Obligations.StepKeepsCanonicalArray := by
  intro s hs t h
  obtain ⟨-, rfl⟩ | ⟨d, rest, i, -, -, hexec⟩ := step_cases h
  · exact hs
  · exact exec_keeps_inv (s := { s with stream := rest }) hs hexec

/-- Settles O17: canonical lists that read alike are one list. -/
theorem equalEntriesAreEqualData : Obligations.EqualEntriesAreEqualData :=
  fun _ _ => Device.eq_of_x_eq

/-- Storing 0 at every index of a canonical array leaves the array that lists nothing. -/
theorem storeRange_zeros {m : List Host.Cell} (hm : Memory.wf m = true) {n : Nat} (hn : n = Config.regCount) :
    storeRange m 0 (List.replicate n 0x00#8) = allZero := by
  have hfits : 0 + (List.replicate n 0x00#8).length = Config.regCount := by
    rw [List.length_replicate, Nat.zero_add, hn]
  refine Memory.eq_of_wfFrom_of_readReg_eq (Memory.wf_storeRange _ hm hfits.le) Memory.wf_allZero fun a ha => ?_
  rw [readReg_storeRange, dif_pos ⟨Nat.zero_le a, hfits ▸ ha⟩, List.getElem_replicate, readReg_allZero]

/-- Settles O22: the loop's stores leave nothing listed, which is how RESET clears the array. -/
theorem resetIsTheZeroingLoop : Obligations.ResetIsTheZeroingLoop := by
  intro s hs
  simp only [exec_reset, storeBytes, zeroRegs, storeRange_zeros (n := 256) hs rfl]

/-- Settles O36: inside the range the second WRITE stores the same bytes again, outside it neither stores. -/
theorem writeIsIdempotent : Obligations.WriteIsIdempotent := by
  intro s c data hs
  obtain ⟨t, ht⟩ : ∃ t, exec (.write (c :: data)) s = .next t := ⟨_, exec_write_cons c data s⟩
  obtain ⟨u, hu⟩ : ∃ u, exec (.write (c :: data)) t = .next u := ⟨_, exec_write_cons c data t⟩
  have hinv := exec_keeps_inv hs ht
  have hcmd : u.dev.cmd = t.dev.cmd := (exec_write_cmd hu).trans (exec_write_cmd ht).symm
  refine ⟨t, u, ht, hu, Device.eq_of_x_eq (exec_keeps_inv hinv hu) hinv (fun i => ?_) hcmd⟩
  rw [exec_write_x hu, exec_write_x ht]
  split <;> rfl

/-- Settles O38: 256 bytes from index 0 on cover every entry, so the two arrays read alike. -/
theorem fullWriteErasesHistory : Obligations.FullWriteErasesHistory := by
  intro s s' data hs hs' hlen
  have ht := exec_write_cons 0x00#8 data s
  have ht' := exec_write_cons 0x00#8 data s'
  refine ⟨_, _, ht, ht', Device.eq_of_x_eq (exec_keeps_inv hs ht) (exec_keeps_inv hs' ht') (fun i => ?_) rfl⟩
  have hin : (0x00#8).toNat ≤ i.toNat ∧ i.toNat < (0x00#8).toNat + min data.length (256 - (0x00#8).toNat) := by
    have hi := i.isLt
    rw [BitVec.toNat_ofNat]
    omega
  rw [exec_write_x ht, exec_write_x ht', dif_pos hin, dif_pos hin]

end Sys2Proof.Proofs.CanonicalArray
end

section
/-! Non-interference and RESET's history (spec/10_state.md, spec/40_control.md): statements O18, O19, O21, O23 and O24. -/

namespace Sys2Proof.Proofs.History

open Sys2Proof Sys2Proof.Machine

/-- Operations that complete from a state complete from any other with the same device, with the same later responses
and the same device at the end. -/
theorem execAll_later_of_dev_eq {ops : List Instr} {s s' t : State} (h : execAll ops s = .next t)
    (hdev : s'.dev = s.dev) :
    ∃ later t', t.responses = s.responses ++ later ∧ execAll ops s' = .next t' ∧
      t'.responses = s'.responses ++ later ∧ t'.dev = t.dev := by
  obtain ⟨later, hlater⟩ := execAll_next_of_dev_eq h
  have ht := Host.Outcome.next.inj (h.symm.trans (hlater s rfl))
  exact ⟨later, _, congrArg State.responses ht, hlater s' hdev, rfl, rfl⟩

/-- Settles O18: completion and fault each carry over between states with the same device. -/
theorem deviceStateDecidesTheFuture : Obligations.DeviceStateDecidesTheFuture :=
  fun _ _ _ hdev => ⟨fun _ h => execAll_later_of_dev_eq h hdev.symm, fun _ h => execAll_fault_of_dev_eq h hdev.symm⟩

/-- Settles O19: only RECV's response depends on the state, and it is the register at the cursor. -/
theorem responseShowsCursorOnlyThroughRegister : Obligations.ResponseShowsCursorOnlyThroughRegister := by
  intro i s s' t t' hx h h'
  obtain ⟨readFlag, rfl, rfl⟩ | ⟨c, data, rfl, rfl⟩ | ⟨rfl, rfl⟩ | ⟨rfl, rfl⟩ := exec_cases h
  · cases h'
    exact ⟨.noValue, rfl, rfl⟩
  · exact ⟨.result 0, rfl, exec_write_responses h'⟩
  · cases h'
    exact ⟨.byte (s.dev.x s.dev.cmd), rfl, by rw [hx]; rfl⟩
  · cases h'
    exact ⟨.noValue, rfl, rfl⟩

/-- Settles O21: each RESET leaves the constructed device. -/
theorem resetIsIdempotent : Obligations.ResetIsIdempotent := by
  intro s
  have ht := exec_reset s
  have hu := exec_reset (respond .noValue (setCursor 0x00#8 (zeroRegs s)))
  exact ⟨_, _, ht, hu, (exec_reset_dev hu).trans (exec_reset_dev ht).symm⟩

/-- Settles O23: RECVs in a row from a device whose entries are all 0 and whose cursor is 0. -/
theorem receivesAfterResetReturnZero : Obligations.ReceivesAfterResetReturnZero := by
  intro s n
  have hreset := exec_reset s
  refine ⟨_, (execAll_cons_next hreset _).trans (execAll_replicate_recv n _), ?_, ?_, zeroRegs_x s⟩
  · simp [afterRecvs, Device.x]
  · simp [afterRecvs]

/-- Settles O24: both RESETs leave the constructed device, from where the same operations go on alike. -/
theorem resetErasesHistory : Obligations.ResetErasesHistory := by
  intro ops s s' t t' h h'
  rw [execAll_cons_next (exec_reset _)] at h h'
  obtain ⟨later, u, hresponses, hu, hresponses', hdev⟩ := execAll_later_of_dev_eq h
    ((exec_reset_dev (exec_reset s')).trans (exec_reset_dev (exec_reset s)).symm)
  obtain rfl := Host.Outcome.next.inj (h'.symm.trans hu)
  exact ⟨hdev.symm, .noValue :: later, by simpa using hresponses, by simpa using hresponses'⟩

end Sys2Proof.Proofs.History
end

section
/-! A WRITE with RECVs behind it, said once: the state that both leave and the bytes that the RECVs return
(spec/41_data.md section 3). -/

namespace Sys2Proof.Machine

/-- A WRITE and `n` RECVs complete as the RECVs do from the state that the WRITE left. -/
theorem execAll_write_recvs {c : Byte} {data : List Byte} {s t : State} (h : exec (.write (c :: data)) s = .next t)
    (n : Nat) : execAll (.write (c :: data) :: List.replicate n .recv) s = .next (afterRecvs n t) := by
  rw [execAll_cons_next h, execAll_replicate_recv]

/-- The RECVs behind a WRITE return the entries from `bytes[0]` on, behind the WRITE's 0 (R122). -/
theorem afterRecvs_write_responses {c : Byte} {data : List Byte} {s t : State}
    (h : exec (.write (c :: data)) s = .next t) (n : Nat) :
    (afterRecvs n t).responses =
      s.responses ++ .result 0 :: (List.range n).map fun k => .byte (t.dev.x (BitVec.ofNat 8 (c.toNat + k))) := by
  simp only [afterRecvs_responses, exec_write_responses h, exec_write_cmd h, ofNat_toNat_add, List.append_assoc,
    List.singleton_append]

theorem afterRecvs_cmd_toNat (n : Nat) (s : State) :
    (afterRecvs n s).dev.cmd.toNat = (s.dev.cmd.toNat + n) % 256 := by
  simp [BitVec.toNat_add]

/-- Past index 255 the index `k` behind `c` is one of the low ones. -/
theorem toNat_ofNat_wrapped {c : Byte} {k : Nat} (hge : 256 ≤ c.toNat + k) (hlt : c.toNat + k < 512) :
    (BitVec.ofNat 8 (c.toNat + k)).toNat = k - (256 - c.toNat) := by
  rw [BitVec.toNat_ofNat]
  omega

end Sys2Proof.Machine
end

section
/-! Blocks written and read back (spec/41_data.md, spec/30_encoding.md section 7): statements O37, O39, O42 and O44 to
O47. -/

namespace Sys2Proof.Proofs.Blocks

open Sys2Proof Sys2Proof.Machine

/-- Settles O37: `exec_write_x` gives each entry as a payload byte or as the old value. -/
theorem writeEffectIgnoresOldState : Obligations.WriteEffectIgnoresOldState := by
  intro s s' c data
  have ht := exec_write_cons c data s
  have ht' := exec_write_cons c data s'
  refine ⟨_, _, ht, ht', rfl, fun i => ?_⟩
  have hi := i.isLt
  split
  case isTrue hin =>
    have hstored : c.toNat ≤ i.toNat ∧ i.toNat < c.toNat + min data.length (256 - c.toNat) := by omega
    rw [exec_write_x ht, exec_write_x ht', dif_pos hstored, dif_pos hstored]
  case isFalse hout =>
    exact ⟨exec_write_x_frame ht (by omega), exec_write_x_frame ht' (by omega)⟩

/-- Settles O39: the first WRITE fills the indices up to 255, the second those from 0, and it ends below `c`. -/
theorem splitWriteCoversTheCrossing : Obligations.SplitWriteCoversTheCrossing := by
  intro s c low high hlow hhigh
  obtain ⟨t, ht⟩ : ∃ t, exec (.write (c :: low)) s = .next t := ⟨_, exec_write_cons c low s⟩
  obtain ⟨u, hu⟩ : ∃ u, exec (.write (0x00#8 :: high)) t = .next u := ⟨_, exec_write_cons 0x00#8 high t⟩
  refine ⟨u, by rw [execAll_cons_next ht, execAll_cons_next hu, execAll], fun k hk => ?_⟩
  have hc := c.isLt
  rw [List.length_append] at hk
  by_cases hklow : k < low.length
  · have hframe : (0x00#8).toNat + min high.length (256 - (0x00#8).toNat) ≤ (BitVec.ofNat 8 (c.toNat + k)).toNat := by
      rw [BitVec.toNat_ofNat, BitVec.toNat_ofNat]
      omega
    rw [exec_write_x_frame hu (.inr hframe), exec_write_x_stored ht (by omega), List.getElem?_append_left hklow]
  · have hindex : BitVec.ofNat 8 (c.toNat + k) = BitVec.ofNat 8 ((0x00#8).toNat + (k - low.length)) := by
      apply BitVec.eq_of_toNat_eq
      rw [toNat_ofNat_wrapped (by omega) (by omega), BitVec.toNat_ofNat, BitVec.toNat_ofNat]
      omega
    have hfits : k - low.length < min high.length (256 - (0x00#8).toNat) := by
      rw [BitVec.toNat_ofNat]
      omega
    rw [hindex, exec_write_x_stored hu hfits, List.getElem?_append_right (by omega)]

/-- Settles O42: the state that `n` RECVs leave, with its indices and its cursor as numbers modulo 256. -/
theorem receivesStreamConsecutiveRegisters : Obligations.ReceivesStreamConsecutiveRegisters := by
  refine fun s n => ⟨_, execAll_replicate_recv n s, rfl, afterRecvs_cmd_toNat n s, rfl, ?_⟩
  have hindex (k : Nat) : BitVec.ofNat 8 ((s.dev.cmd.toNat + k) % 256) = s.dev.cmd + BitVec.ofNat 8 k := by
    rw [← ofNat_toNat_add]
    exact BitVec.eq_of_toNat_eq (by simp)
  simp only [afterRecvs_responses, hindex]

/-- RECVs up to the length of a block that fits return its bytes in order. -/
theorem recvs_return_block {c : Byte} {data : List Byte} {s t : State} (h : exec (.write (c :: data)) s = .next t)
    {m : Nat} (hfits : data.length ≤ 256 - c.toNat) (hm : m ≤ data.length) :
    ((List.range m).map fun k => Response.byte (t.dev.x (BitVec.ofNat 8 (c.toNat + k)))) =
      (data.take m).map .byte := by
  apply List.ext_getElem
  · simp [hm]
  · intro k hk _
    have hkm : k < m := by simpa using hk
    have hstored := exec_write_x_stored h (k := k) (by omega)
    rw [List.getElem?_eq_getElem (by omega)] at hstored
    simp [Option.some.inj hstored]

/-- The entry at the `k`-th index behind `bytes[0]` after a WRITE that is cut off: a payload byte up to index 255, and
past it what a low entry held before. -/
theorem exec_write_x_past_truncation {c : Byte} {data : List Byte} {s t : State}
    (h : exec (.write (c :: data)) s = .next t) (hlong : 256 - c.toNat < data.length) {k : Nat} (hk : k < 256) :
    if k < 256 - c.toNat then some (t.dev.x (BitVec.ofNat 8 (c.toNat + k))) = data[k]?
    else t.dev.x (BitVec.ofNat 8 (c.toNat + k)) = s.dev.x (BitVec.ofNat 8 (k - (256 - c.toNat))) := by
  have hc := c.isLt
  split
  case isTrue hin => exact exec_write_x_stored h (by omega)
  case isFalse hpast =>
    have hindex : (BitVec.ofNat 8 (c.toNat + k)).toNat = k - (256 - c.toNat) :=
      toNat_ofNat_wrapped (by omega) (by omega)
    rw [exec_write_x_below h (by omega), ← hindex, BitVec.ofNat_toNat, BitVec.setWidth_eq]

/-- Settles O45: the RECVs return the entries from `bytes[0]` on, which hold the block as far as it fits and behind
index 255 what they held before. -/
theorem blockReadBack : Obligations.BlockReadBack := by
  intro s c data m
  obtain ⟨t, ht⟩ : ∃ t, exec (.write (c :: data)) s = .next t := ⟨_, exec_write_cons c data s⟩
  refine ⟨_, _, execAll_write_recvs ht m, afterRecvs_write_responses ht m, by simp, ?_, recvs_return_block ht,
    fun hlong k hkm hk => ?_⟩
  · rw [afterRecvs_cmd_toNat, exec_write_cmd ht]
  · have hentry := exec_write_x_past_truncation ht hlong hk
    rw [List.getElem?_map, List.getElem?_range hkm]
    split at hentry
    case isTrue hin => rw [if_pos hin, ← hentry]; rfl
    case isFalse hpast => rw [if_neg hpast, Option.map_some, hentry]

/-- Settles O44: 256 bytes fit from index 0, so it is the read-back of a whole block that brings the cursor around. -/
theorem fullWriteRoundTrip : Obligations.FullWriteRoundTrip := by
  intro s data hlen
  obtain ⟨t, later, hexec, hresponses, -, hcmd, hblock, -⟩ := blockReadBack s 0x00#8 data 256
  refine ⟨t, hexec, ?_, BitVec.eq_of_toNat_eq hcmd⟩
  rw [hresponses, hblock hlen.le hlen.ge, List.take_of_length_le hlen.le]

/-- Settles O46: an address-only WRITE leaves the entries alone, so the RECVs return those held before. -/
theorem readPseudoStreamsRegisters : Obligations.ReadPseudoStreamsRegisters := by
  intro s c n
  have h := exec_write_cursor_only c s
  exact ⟨_, execAll_write_recvs h n, rfl, afterRecvs_write_responses h n⟩

/-- Settles O47: FILL is one WRITE whose data bytes are all `v`. -/
theorem fillPseudoFillsRange : Obligations.FillPseudoFillsRange := by
  intro s c v n
  have h := exec_write_cons c (List.replicate n v) s
  refine ⟨_, execAll_cons_next h [], exec_write_cmd h, fun i => ?_⟩
  have hi := i.isLt
  rw [exec_write_x h]
  simp only [List.length_replicate, List.getElem_replicate, dite_eq_ite]
  exact if_congr (by omega) rfl rfl

end Sys2Proof.Proofs.Blocks
end

section
/-! What stops an operation, said once, and runs descriptor by descriptor: each one that decodes and completes hands its
state to the stream behind it (spec/60_exceptions.md section 1, spec/70_reset_and_hazards.md sections 4 and 5). -/

namespace Sys2Proof.Machine

/-- No decoded operation is refused (R134). -/
theorem exec_ne_refused (i : Instr) (s : State) (r : Refusal) : exec i s ≠ .refused r := by
  intro h
  cases i with
  | write bytes => cases bytes <;> cases h
  | quick readFlag => cases h
  | recv => cases h
  | reset => cases h

/-- The one fault is the empty WRITE's (R106, R131). -/
theorem exec_fault_iff (i : Instr) (s : State) (f : Fault) :
    exec i s = .fault f ↔ i = .write [] ∧ f = .zeroLengthWrite ⟨0x01#8, []⟩ := by
  constructor
  · intro h
    cases i with
    | write bytes =>
      cases bytes with
      | nil => exact ⟨rfl, (Host.Outcome.fault.inj h).symm⟩
      | cons c data => cases h
    | quick readFlag => cases h
    | recv => cases h
    | reset => cases h
  · rintro ⟨rfl, rfl⟩
    exact exec_write_nil s

/-- A sequence completes when its first operation does and the others do from there (R52). -/
theorem execAll_cons_eq_next_iff {i : Instr} {rest : List Instr} {s t : State} :
    execAll (i :: rest) s = .next t ↔ ∃ u, exec i s = .next u ∧ execAll rest u = .next t := by
  constructor
  · intro h
    cases hexec : exec i s with
    | next u => exact ⟨u, rfl, by rw [← execAll_cons_next hexec, h]⟩
    | fault f => simp [execAll, hexec] at h
    | refused r => exact absurd hexec (exec_ne_refused i s r)
  · rintro ⟨u, hexec, h⟩
    rw [execAll_cons_next hexec, h]

/-- Operations that complete leave the stream alone and answer once each. -/
theorem execAll_stream_and_responses_length {ops : List Instr} {s t : State} (h : execAll ops s = .next t) :
    t.stream = s.stream ∧ t.responses.length = s.responses.length + ops.length := by
  induction ops generalizing s with
  | nil =>
    cases h
    exact ⟨rfl, rfl⟩
  | cons i rest ih =>
    obtain ⟨u, hexec, hrest⟩ := execAll_cons_eq_next_iff.mp h
    obtain ⟨hstream, hlength⟩ := ih hrest
    obtain ⟨r, hr⟩ := exec_responses hexec
    refine ⟨hstream.trans (exec_stream hexec), ?_⟩
    rw [hlength, hr, List.length_append, List.length_singleton, List.length_cons, Nat.add_assoc, Nat.add_comm 1]

/-- An operation completes alike whatever waits in the stream (R14, R30). -/
theorem exec_next_with_stream {i : Instr} {s t : State} (h : exec i s = .next t) (ds : List Descriptor) :
    exec i { s with stream := ds } = .next { t with stream := ds } := by
  obtain ⟨readFlag, rfl, rfl⟩ | ⟨c, data, rfl, rfl⟩ | ⟨rfl, rfl⟩ | ⟨rfl, rfl⟩ := exec_cases h <;> rfl

theorem runSteps_succ_of_next {n : Nat} {s t : State} (h : step s = .next t) : runSteps (n + 1) s = runSteps n t := by
  simp only [runSteps, h]

theorem runSteps_succ_of_fault {n : Nat} {s : State} {f : Fault} (h : step s = .fault f) :
    runSteps (n + 1) s = .faulted f s := by
  simp only [runSteps, h]

theorem runSteps_succ_of_refused {n : Nat} {s : State} {r : Refusal} (h : step s = .refused r) :
    runSteps (n + 1) s = .refused r s := by
  simp only [runSteps, h]

/-- An idle machine runs a stream in one step per descriptor, from the state with just that stream delivered (R171). -/
theorem runFrom_of_idle {s : State} (hs : s.stream = []) (ds : List Descriptor) :
    runFrom s ds = runSteps ds.length { s with stream := ds } := by
  simp only [runFrom, deliver, hs, List.nil_append]

section FirstDescriptor

variable {s : State} {d : Descriptor} {i : Instr} (hs : s.stream = [])

include hs

theorem runFrom_cons_of_next {u : State} (hd : decode d = .instr i) (h : exec i s = .next u) (rest : List Descriptor) :
    runFrom s (d :: rest) = runFrom u rest := by
  have hstep : step { s with stream := d :: rest } = .next { u with stream := rest } := by
    rw [step_of_decode rfl hd]
    exact exec_next_with_stream h rest
  rw [runFrom_of_idle hs, runFrom_of_idle ((exec_stream h).trans hs), List.length_cons, runSteps_succ_of_next hstep]

theorem runFrom_cons_of_fault {f : Fault} (hd : decode d = .instr i) (h : exec i s = .fault f)
    (rest : List Descriptor) : runFrom s (d :: rest) = .faulted f { s with stream := d :: rest } := by
  have hstep : step { s with stream := d :: rest } = .fault f := by
    rw [step_of_decode rfl hd]
    exact exec_fault_of_fault h _
  rw [runFrom_of_idle hs, List.length_cons, runSteps_succ_of_fault hstep]

theorem runFrom_cons_of_reject {r : Reject} (hd : decode d = .reject r) (rest : List Descriptor) :
    runFrom s (d :: rest) = .refused (refusalOf r) { s with stream := d :: rest } := by
  rw [runFrom_of_idle hs, List.length_cons, runSteps_succ_of_refused (step_of_reject rfl hd)]

/-- A run that ends normal has decoded and completed its first descriptor. -/
theorem exec_next_of_runFrom_cons_normal {rest : List Descriptor} {t : State}
    (h : runFrom s (d :: rest) = .normal t) : ∃ i u, decode d = .instr i ∧ exec i s = .next u := by
  cases hd : decode d with
  | reject r =>
    rw [runFrom_cons_of_reject hs hd] at h
    cases h
  | instr i =>
    cases hexec : exec i s with
    | next u => exact ⟨i, u, rfl, hexec⟩
    | fault f =>
      rw [runFrom_cons_of_fault hs hd hexec] at h
      cases h
    | refused r => exact absurd hexec (exec_ne_refused i s r)

end FirstDescriptor

/-- The encodings of operations that complete hand the state they leave to the stream behind them (R52). -/
theorem runFrom_map_encode_append {ops : List Instr} {s t : State} (hs : s.stream = []) (h : execAll ops s = .next t)
    (es : List Descriptor) : runFrom s (ops.map encode ++ es) = runFrom t es := by
  induction ops generalizing s with
  | nil =>
    cases h
    rfl
  | cons i rest ih =>
    obtain ⟨u, hexec, hrest⟩ := execAll_cons_eq_next_iff.mp h
    rw [List.map_cons, List.cons_append, runFrom_cons_of_next hs (decode_encode i) hexec]
    exact ih ((exec_stream hexec).trans hs) hrest

/-- A stream that runs to its normal end is the encoding of operations that complete in sequence. -/
theorem exists_ops_of_runFrom_normal {ds : List Descriptor} {s t : State} (hs : s.stream = [])
    (h : runFrom s ds = .normal t) : ∃ ops : List Instr, ds = ops.map encode ∧ execAll ops s = .next t := by
  induction ds generalizing s with
  | nil =>
    rw [runFrom_nil hs] at h
    cases h
    exact ⟨[], rfl, rfl⟩
  | cons d rest ih =>
    obtain ⟨i, u, hd, hexec⟩ := exec_next_of_runFrom_cons_normal hs h
    rw [runFrom_cons_of_next hs hd hexec] at h
    obtain ⟨ops, rfl, hops⟩ := ih ((exec_stream hexec).trans hs) h
    exact ⟨i :: ops, by rw [eq_encode_of_decode hd, List.map_cons], by rw [execAll_cons_next hexec, hops]⟩

/-- Legal descriptors are the encodings of well-formed operations (R130). -/
theorem exists_ops_of_legal {ds : List Descriptor} (h : ∀ d ∈ ds, legalDescriptor d = true) :
    ∃ ops : List Instr, ds = ops.map encode ∧ ∀ i ∈ ops, i.wellFormed = true := by
  induction ds with
  | nil => exact ⟨[], rfl, by simp⟩
  | cons d rest ih =>
    obtain ⟨hd, hrest⟩ := List.forall_mem_cons.mp h
    obtain ⟨ops, rfl, hops⟩ := ih hrest
    unfold legalDescriptor at hd
    split at hd
    case h_1 i hdecode =>
      exact ⟨i :: ops, by rw [eq_encode_of_decode hdecode, List.map_cons], List.forall_mem_cons.mpr ⟨hd, hops⟩⟩
    case h_2 => cases hd

end Sys2Proof.Machine
end

section
/-! Faults, runs and observations (spec/60_exceptions.md, spec/70_reset_and_hazards.md): statements O35, O49 to O54. -/

namespace Sys2Proof.Proofs.Runs

open Sys2Proof Sys2Proof.Machine

/-- Settles O49: the empty WRITE's fault is the only stop of an operation. -/
theorem zeroLengthWriteIsTheOnlyFault : Obligations.ZeroLengthWriteIsTheOnlyFault :=
  fun i s => ⟨exec_fault_iff i s, exec_ne_refused i s⟩

/-- Settles O35: the descriptor decodes to the empty WRITE, whose fault the step and the run pass on. -/
theorem zeroLengthWriteFaults : Obligations.ZeroLengthWriteFaults := by
  refine ⟨exec_write_nil, rfl, fun s rest n hs => runSteps_succ_of_fault ?_⟩
  rw [step_of_decode hs (decode_write []), exec_write_nil]

/-- Settles O50: legal descriptors encode operations that complete in sequence, and the run is that sequence. -/
theorem legalStreamRunsToNormalEnd : Obligations.LegalStreamRunsToNormalEnd := by
  intro s ds hs hlegal
  obtain ⟨ops, rfl, hops⟩ := exists_ops_of_legal hlegal
  obtain ⟨t, hexec⟩ := execAll_next_of_wellFormed hops s
  obtain ⟨hstream, hlength⟩ := execAll_stream_and_responses_length hexec
  have ht : t.stream = [] := hstream.trans hs
  refine ⟨t, ops, ?_, ht, by rw [hlength, List.length_map], rfl, hexec⟩
  rw [← List.append_nil (ops.map encode), runFrom_map_encode_append hs hexec, runFrom_nil ht]

/-- Settles O51: the first stream encodes operations that complete in `t`. -/
theorem runIsSequentialComposition : Obligations.RunIsSequentialComposition := by
  intro s t ds es hs h
  obtain ⟨ops, rfl, hops⟩ := exists_ops_of_runFrom_normal hs h
  exact runFrom_map_encode_append hs hops es

/-- A stream that has run to its normal end leaves nothing undelivered. -/
theorem stream_eq_nil_of_runFrom_normal {ds : List Descriptor} {s t : State} (hs : s.stream = [])
    (h : runFrom s ds = .normal t) : t.stream = [] := by
  obtain ⟨ops, -, hops⟩ := exists_ops_of_runFrom_normal hs h
  exact (execAll_stream_and_responses_length hops).1.trans hs

/-- Settles O52: the run goes on from `t`, where the empty WRITE at the head faults. -/
theorem runStopsAtZeroLengthWrite : Obligations.RunStopsAtZeroLengthWrite := by
  intro s t pre post hs h
  have ht := stream_eq_nil_of_runFrom_normal hs h
  rw [runIsSequentialComposition s t pre _ hs h, runFrom_cons_of_fault ht (decode_write []) (exec_write_nil t)]
  exact ⟨rfl, rfl⟩

/-- Settles O53: the run goes on from `t`, where the descriptor at the head is refused. -/
theorem runStopsAtRefusedDescriptor : Obligations.RunStopsAtRefusedDescriptor := by
  intro s t pre post d r hs h hd
  have ht := stream_eq_nil_of_runFrom_normal hs h
  rw [runIsSequentialComposition s t pre _ hs h, runFrom_cons_of_reject ht hd]
  exact ⟨rfl, rfl⟩

/-- Settles O54: the listing of the array holds each entry at its index; the codes are computed. -/
theorem observationsAndStopCodes : Obligations.ObservationsAndStopCodes :=
  ⟨fun s => ⟨s.dev.allRegs, rfl, allRegs_length s.dev, allRegs_getElem? s.dev⟩,
    fun _ => rfl, fun _ => rfl, fun _ _ => rfl⟩

end Sys2Proof.Proofs.Runs
end
